-- ==== Sys2Proof/Word.lean ====
section
/-! DEFINITION. The words of Cdm8e: bytes of 8 bits and code addresses of 16 bits
(spec/00_scope.md R6, R9). What is computed on them stands in `Machine/Bits.lean`. -/

namespace Sys2Proof

/-- A register value, a memory cell or a data address: 8 bits, bit 0 the least significant (R8, R9). -/
abbrev Byte := BitVec 8

/-- A code address or a value of PC: 16 bits (R6, R25). -/
abbrev Addr := BitVec 16

end Sys2Proof
end

