-- ==== Sys2Proof/Machine/Bits.lean ====
section
/-! DEFINITION. Extension, byte order and the signed reading of a byte (spec/00_scope.md R9). -/

namespace Sys2Proof

/-- `lo(w)`: bits 7:0 of a 16-bit value (R9). -/
def lo (w : Addr) : Byte := w.extractLsb' 0 8

/-- `hi(w)`: bits 15:8 of a 16-bit value (R9). -/
def hi (w : Addr) : Byte := w.extractLsb' 8 8

/-- `{h, l}`: the 16-bit value `h * 256 + l` (R9). -/
def concat16 (h l : Byte) : Addr := h ++ l

/-- `zext_16(b)`: the byte with eight zero bits above it (R9). -/
def zext16 (b : Byte) : Addr := b.setWidth 16

/-- `sext_16(b)`: the byte with its bit 7 copied into the eight bits above it (R9). -/
def sext16 (b : Byte) : Addr := b.signExtend 16

/-- `signed8(b)`: the two's complement reading of a byte, -128 to 127 (R9). -/
def signed8 (b : Byte) : Int := if b.toNat < 128 then (b.toNat : Int) else (b.toNat : Int) - 256

/-- A single bit as the number 0 or 1. -/
def bitValue (b : Bool) : Nat := if b then 1 else 0

end Sys2Proof
end

