-- ==== Sys2Proof/Syntax.lean ====
section
/-! DEFINITION. The instructions of Cdm8e: one constructor for each of the 51 rows of
spec/opcode_table.json (spec/30_encoding.md R88, R90). -/

namespace Sys2Proof

/-- The four general registers (10_state.md R21). -/
inductive Reg where
  | r0 | r1 | r2 | r3
  deriving DecidableEq, Repr

/-- The sixteen branch conditions, under the first name of each row of 43_control.md R171, in the
order of their codes 0 to F. `always` is the manual's `r`/`true` and `never` its `false`. -/
inductive Cond where
  | eq | ne | hs | lo | mi | pl | vs | vc | hi | ls | ge | lt | gt | le | always | never
  deriving DecidableEq, Repr

/-- One instruction. Operands stand in the order the assembler writes them: in an RR instruction `rn`
first, `rm` second (30_encoding.md R83). Immediates are the encoded bytes (R85); the offset of a branch
is the encoded signed byte (R86); the target of `jmp` and `jsr` is the 16-bit address. -/
inductive Instr where
  -- 42_arithmetic.md, format RR
  | move (rn rm : Reg)
  | add (rn rm : Reg)
  | addc (rn rm : Reg)
  | sub (rn rm : Reg)
  | and (rn rm : Reg)
  | or (rn rm : Reg)
  | xor (rn rm : Reg)
  | cmp (rn rm : Reg)
  -- 42_arithmetic.md, format R
  | not (rn : Reg)
  | neg (rn : Reg)
  | dec (rn : Reg)
  | inc (rn : Reg)
  | shr (rn : Reg)
  | shla (rn : Reg)
  | shra (rn : Reg)
  | rol (rn : Reg)
  -- 40_memory_access.md and 41_stack.md
  | st (rn rm : Reg)
  | ld (rn rm : Reg)
  | push (rn : Reg)
  | pop (rn : Reg)
  | ldsa (rn : Reg) (imm : Byte)
  | addsp (imm : Byte)
  | setsp (imm : Byte)
  | pushall
  | popall
  | ldi (rn : Reg) (imm : Byte)
  -- 44_clock_control.md and 43_control.md
  | halt
  | wait
  | jsr (target : Addr)
  | rts
  | ioi
  | rti
  | crc
  | jmp (target : Addr)
  -- 43_control.md R170, one constructor for each condition of R171
  | beq (off : Byte)
  | bne (off : Byte)
  | bhs (off : Byte)
  | blo (off : Byte)
  | bmi (off : Byte)
  | bpl (off : Byte)
  | bvs (off : Byte)
  | bvc (off : Byte)
  | bhi (off : Byte)
  | bls (off : Byte)
  | bge (off : Byte)
  | blt (off : Byte)
  | bgt (off : Byte)
  | ble (off : Byte)
  | br (off : Byte)
  | bfalse (off : Byte)
  -- 40_memory_access.md R122
  | ldc (rn rm : Reg)
  deriving DecidableEq, Repr

end Sys2Proof
end

