-- ==== Sys2Proof/Machine/Flags.lean ====
section
/-! DEFINITION. The bits of PS, every flag computation, and the branch conditions
(spec/00_scope.md R13, spec/10_state.md R29 to R35, spec/42_arithmetic.md R140,
spec/43_control.md R171). -/

namespace Sys2Proof.Machine

/-! ## The bits of PS (10_state.md R29) -/

/-- I, bit 7. -/
def flagI (ps : Byte) : Bool := ps.getLsbD 7

/-- C, bit 3. -/
def flagC (ps : Byte) : Bool := ps.getLsbD 3

/-- V, bit 2. -/
def flagV (ps : Byte) : Bool := ps.getLsbD 2

/-- Z, bit 1. -/
def flagZ (ps : Byte) : Bool := ps.getLsbD 1

/-- N, bit 0. -/
def flagN (ps : Byte) : Bool := ps.getLsbD 0

/-- Two flags as the byte with `x` in bit 1 and `y` in bit 0. -/
def twoBits (x y : Bool) : Byte := (BitVec.ofBool x ++ BitVec.ofBool y).setWidth 8

/-- `setCV(c, v)` of R13: bits 3 and 2 of PS, nothing else. -/
def setCV (ps : Byte) (c v : Bool) : Byte := (ps &&& 0xF3) ||| (twoBits c v <<< 2)

/-- `setZN(res)` of R13: Z is 1 exactly when the result is zero, N is bit 7 of the result; nothing else
of PS changes. -/
def setZN (ps res : Byte) : Byte := (ps &&& 0xFC) ||| twoBits (res == 0) (res.getLsbD 7)

/-- `setCV(c, v); setZN(res)`, as every instruction of 42_arithmetic.md ends. -/
def setFlags (ps : Byte) (c v : Bool) (res : Byte) : Byte := setZN (setCV ps c v) res

/-! ## Results with their C and V (42_arithmetic.md R140 to R156) -/

/-- A result byte with the values it gives C and V. -/
structure Alu where
  res : Byte
  c : Bool
  v : Bool
  deriving DecidableEq, Repr

/-- `add8(a, b, cin)` of R140. -/
def add8 (a b : Byte) (cin : Bool) : Alu :=
  let s := a.toNat + b.toNat + bitValue cin
  let res := BitVec.ofNat 8 s
  { res := res
    c := decide (256 ≤ s)
    v := (a.getLsbD 7 == b.getLsbD 7) && (res.getLsbD 7 != a.getLsbD 7) }

/-- `sub8(a, b)` of R140: `a + ~b + 1`, so that C = 1 means no borrow (log 13, log 14). -/
def sub8 (a b : Byte) : Alu := add8 a (~~~b) true

/-- A logic result: C and V become 0 (R141, R149 to R152). -/
def logic8 (res : Byte) : Alu := { res := res, c := false, v := false }

/-- `shra` (R153): bit 7 kept, bits 7:1 to 6:0, bit 0 into C, V = 0. -/
def shra8 (x : Byte) : Alu :=
  { res := BitVec.ofNat 8 (bitValue (x.getLsbD 7) * 128 + x.toNat / 2), c := x.getLsbD 0, v := false }

/-- `shla` (R154): bits 6:0 to 7:1, bit 0 = 0, bit 7 into C, V = 1 when bit 7 changes. -/
def shla8 (x : Byte) : Alu :=
  { res := BitVec.ofNat 8 (x.toNat * 2), c := x.getLsbD 7, v := x.getLsbD 7 ^^ x.getLsbD 6 }

/-- `shr` (R155): the old C into bit 7, bits 7:1 to 6:0, bit 0 into C, V = 0. -/
def shr8 (x : Byte) (cin : Bool) : Alu :=
  { res := BitVec.ofNat 8 (bitValue cin * 128 + x.toNat / 2), c := x.getLsbD 0, v := false }

/-- `rol` (R156): bits 6:0 to 7:1, bit 7 into bit 0 and into C, V = 0 (log 18). -/
def rol8 (x : Byte) : Alu :=
  { res := BitVec.ofNat 8 ((x.toNat * 2) % 256 + bitValue (x.getLsbD 7)), c := x.getLsbD 7, v := false }

/-! ## The branch conditions (43_control.md R171) -/

/-- `cond_holds(cc, PS)`: the test of R171 on the flags. -/
def condHolds (c : Cond) (ps : Byte) : Bool :=
  match c with
  | .eq => flagZ ps
  | .ne => !flagZ ps
  | .hs => flagC ps
  | .lo => !flagC ps
  | .mi => flagN ps
  | .pl => !flagN ps
  | .vs => flagV ps
  | .vc => !flagV ps
  | .hi => flagC ps && !flagZ ps
  | .ls => !flagC ps || flagZ ps
  | .ge => flagN ps == flagV ps
  | .lt => flagN ps != flagV ps
  | .gt => !flagZ ps && (flagN ps == flagV ps)
  | .le => flagZ ps || (flagN ps != flagV ps)
  | .always => true
  | .never => false

end Sys2Proof.Machine
end

