-- ==== Sys2Proof/Config.lean ====
section
/-! DEFINITION. What the system around the processor fixes, and the two free values
(spec/00_scope.md R6, R7). The parameters `arch` and `ldc_high` of R7 are fields of State, so that a
statement over every state covers every value of them; only their values at reset stand here. -/

namespace Sys2Proof

/-- `arch` of 00_scope.md R7 and 10_state.md R38: whether code and data share one address space. -/
inductive Arch where
  | harvard
  | vonNeumann
  deriving DecidableEq, Repr

namespace Config

/-- DESIGN CHOICE, unsafe (log 1): what a memory cell that is not listed holds. The spec gives the
memories no reset contents (70_reset_and_hazards.md R241). -/
def unlistedByte : Byte := 0x00

/-- The spec's default of the parameter `arch` (R7, decision D1; log 2). -/
def defaultArch : Arch := .harvard

/-- The spec's default of the parameter `ldc_high` (R7, R122, decision D3; log 3). -/
def defaultLdcHigh : Byte := 0x00

/-- Number of code cells (10_state.md R36). -/
def codeSize : Nat := 65536

/-- Number of data cells (10_state.md R37). -/
def dataSize : Nat := 256

/-- FREE VALUE (log 5): `irq_req(t)` of 60_exceptions.md R212 at a boundary `t` for which the state lists
no input. The outside presents a request there or none, and the spec constrains it in no way. -/
opaque irqReq : Nat → Bool

/-- FREE VALUE (log 5): `irq_vector(t)` of 60_exceptions.md R212 at a boundary `t` for which the state
lists no input. The outside presents some vector number there and the spec constrains it in no way. -/
opaque irqVector : Nat → BitVec 3

end Config

end Sys2Proof
end

