-- ==== Sys2Proof/Machine/State.lean ====
section
/-! DEFINITION. The state of one Cdm8e processor and its two memories, as plain data
(spec/10_state.md R20 to R42), the reasons a step can stop, and the state after reset. -/

namespace Sys2Proof.Machine

/-- A memory: (address, byte) pairs in the canonical form that `Memory.wf` (Machine/Ops.lean) states.
A cell that is not listed holds `Config.unlistedByte`. -/
abbrev Memory := List Host.Cell

/-- The general registers r0 to r3 (R21). -/
structure Regs where
  r0 : Byte
  r1 : Byte
  r2 : Byte
  r3 : Byte
  deriving DecidableEq, Repr

/-- The hidden state `clock` (R40). -/
inductive Clock where
  /-- Instructions execute. -/
  | running
  /-- After `halt` (44_clock_control.md R190). -/
  | halted
  /-- After `wait` (R191). -/
  | waiting
  deriving DecidableEq, Repr

/-- What the outside supplies with a reset: the contents of the two memories, `code_image` and
`data_image` of 70_reset_and_hazards.md R241 (log 8). Cells may stand in any order. -/
structure ResetImage where
  code : List Host.Cell
  data : List Host.Cell
  deriving DecidableEq, Repr

/-- What the outside presents at one boundary: a reset or none (70_reset_and_hazards.md R240), and the
interrupt input `irq_req(t)`, `irq_vector(t)` of 60_exceptions.md R212. -/
structure BoundaryInput where
  reset : Option ResetImage
  irqReq : Bool
  irqVector : BitVec 3
  deriving DecidableEq, Repr

/-- The whole state (R20), with the parameters `arch` and `ldc_high` of 00_scope.md R7, which no step
changes, and the model's own two fields for the inputs of the step relation (60_exceptions.md R212). -/
structure State where
  /-- r0 to r3 (R21). -/
  regs : Regs
  /-- SP, the stack pointer (R23). -/
  sp : Byte
  /-- PS, the processor status: I R R R C V Z N in bits 7 to 0 (R29). -/
  ps : Byte
  /-- PC, the program counter (R25). -/
  pc : Addr
  /-- The clock state (R40). -/
  clock : Clock
  /-- Code memory, 65536 cells (R36); under `arch = VonNeumann` the one shared memory (R38). -/
  code : Memory
  /-- Data memory, 256 cells (R37); not used under `arch = VonNeumann`. -/
  data : Memory
  /-- The parameter `arch` (R38). -/
  arch : Arch
  /-- The parameter `ldc_high` (40_memory_access.md R122). -/
  ldcHigh : Byte
  /-- MODEL's own: what the outside presents at this boundary and the next ones (log 4). -/
  inputs : List BoundaryInput
  /-- MODEL's own: the index `t` of this boundary (60_exceptions.md R212; log 6). -/
  boundary : Nat
  deriving DecidableEq, Repr

/-- Why a step can stop with a fault. -/
inductive Fault where
  /-- `IllegalInstruction(b)`: `step` fetched one of the unassigned opcode bytes 0xDB, 0xDC, 0xDE,
  0xDF; `pc` is PC in the faulted state, A + 1 (30_encoding.md R96). A fault of the model, not a trap of
  the machine; safe (log 26). -/
  | illegalInstruction (b : Byte) (pc : Addr)
  deriving DecidableEq, Repr

/-- Why a step can be refused. -/
inductive Refusal where
  /-- An instruction without a meaning in `exec`; no arm of `exec` is one. Safe. -/
  | notModelled (mnemonic : String)
  deriving DecidableEq, Repr

/-- The state after reset (R42, 70_reset_and_hazards.md R241): all registers zero, the clock running.
The memories list nothing (log 1), the parameters have the spec's defaults (log 2, log 3), and no
input is listed (log 4, log 6). -/
def State.reset : State where
  regs := { r0 := 0x00, r1 := 0x00, r2 := 0x00, r3 := 0x00 }
  sp := 0x00
  ps := 0x00
  pc := 0x0000
  clock := .running
  code := []
  data := []
  arch := Config.defaultArch
  ldcHigh := Config.defaultLdcHigh
  inputs := []
  boundary := 0

end Sys2Proof.Machine
end

