-- ==== Sys2Proof/Machine/Ops.lean ====
section
/-! DEFINITION. The named operations over memory, registers and the stack (spec/00_scope.md R10 to R15,
spec/20_memory.md R50 to R62, spec/41_stack.md R137), entering an interrupt and returning from one
(spec/60_exceptions.md R215, spec/43_control.md R178), and the inputs of a boundary
(spec/60_exceptions.md R212, R219). -/

namespace Sys2Proof.Machine

/-! ## A memory as a list of cells -/

/-- The byte at an address; a cell that is not listed holds `Config.unlistedByte` (log 1). -/
def readCell : Memory → Nat → Byte
  | [], _ => Config.unlistedByte
  | (k, v) :: rest, a => if k = a then v else readCell rest a

/-- The memory without an entry for an address. -/
def eraseCell (m : Memory) (a : Nat) : Memory := m.filter fun c => c.1 != a

/-- An entry put before the first one of a higher address. -/
def insertCell : Memory → Nat → Byte → Memory
  | [], a, v => [(a, v)]
  | (k, w) :: rest, a, v => if a < k then (a, v) :: (k, w) :: rest else (k, w) :: insertCell rest a v

/-- The memory with one byte replaced, in canonical form: a byte that equals what an unlisted cell holds
is not listed. -/
def writeCell (m : Memory) (a : Nat) (v : Byte) : Memory :=
  if v = Config.unlistedByte then eraseCell m a else insertCell (eraseCell m a) a v

/-- The canonical form of a memory of `size` cells: addresses strictly rising and inside the memory, no
entry equal to what an unlisted cell holds. -/
abbrev Memory.wf (size : Nat) (m : Memory) : Prop :=
  m.Pairwise (fun x y => x.1 < y.1) ∧ ∀ c ∈ m, c.1 < size ∧ c.2 ≠ Config.unlistedByte

/-- A list of cells, in any order, as a memory of `size` cells; of two entries for one address the later
one counts. -/
def loadImage (size : Nat) (cells : List Host.Cell) : Memory :=
  cells.foldl (fun m c => if c.1 < size then writeCell m c.1 c.2 else m) []

/-! ## Registers -/

/-- The content of a register in the register file (R21). -/
def Regs.get (rs : Regs) : Reg → Byte
  | .r0 => rs.r0
  | .r1 => rs.r1
  | .r2 => rs.r2
  | .r3 => rs.r3

/-- The register file with one register replaced. -/
def Regs.set (rs : Regs) (r : Reg) (v : Byte) : Regs :=
  match r with
  | .r0 => { rs with r0 := v }
  | .r1 => { rs with r1 := v }
  | .r2 => { rs with r2 := v }
  | .r3 => { rs with r3 := v }

/-- `r[i]` read (R10). -/
def State.reg (s : State) (r : Reg) : Byte := s.regs.get r

/-- `r[i] <- v` (R10). -/
def State.setReg (s : State) (r : Reg) (v : Byte) : State := { s with regs := s.regs.set r v }

/-- `SP <- v`. -/
def State.setSp (s : State) (v : Byte) : State := { s with sp := v }

/-- `PS <- v`, all 8 bits (10_state.md R29). -/
def State.setPs (s : State) (v : Byte) : State := { s with ps := v }

/-- `PC <- target` (R15). -/
def State.setPc (s : State) (target : Addr) : State := { s with pc := target }

/-- `clock <- c` (10_state.md R40). -/
def State.setClock (s : State) (c : Clock) : State := { s with clock := c }

/-- PC after `n` bytes are fetched: `(PC + n) mod 65536` (R12, 10_state.md R26, R27). -/
def State.advance (s : State) (n : Nat) : State := s.setPc (s.pc + BitVec.ofNat 16 n)

/-- `setCV(c, v); setZN(res)` on PS (R13). -/
def State.putFlags (s : State) (x : Alu) : State := s.setPs (setFlags s.ps x.c x.v x.res)

/-- A result into a register, and its flags into PS. -/
def State.putResult (s : State) (r : Reg) (x : Alu) : State := (s.setReg r x.res).putFlags x

/-! ## Code and data memory -/

/-- `MemRead_C(addr, 1)` (R11). -/
def State.readCode (s : State) (a : Addr) : Byte := readCell s.code a.toNat

/-- `MemRead_C(addr, 2)`, little-endian (R11). -/
def State.readCode16 (s : State) (a : Addr) : Addr := concat16 (s.readCode (a + 1)) (s.readCode a)

/-- `MemRead_D(addr, 1)` (R11). Under `arch = VonNeumann` the cell `zext_16(addr)` of the shared memory
(10_state.md R38). -/
def State.readData (s : State) (a : Byte) : Byte :=
  match s.arch with
  | .harvard => readCell s.data a.toNat
  | .vonNeumann => readCell s.code (zext16 a).toNat

/-- `MemWrite_D(addr, 1, v)` (R11, 20_memory.md R62). -/
def State.writeData (s : State) (a v : Byte) : State :=
  match s.arch with
  | .harvard => { s with data := writeCell s.data a.toNat v }
  | .vonNeumann => { s with code := writeCell s.code (zext16 a).toNat v }

/-- `MemRead_D(addr, 2)`: `{MemRead_D((addr+1) mod 256, 1), MemRead_D(addr, 1)}` (R11). -/
def State.readData16 (s : State) (a : Byte) : Addr := concat16 (s.readData (a + 1)) (s.readData a)

/-- `MemWrite_D(addr, 2, w)`: the low byte at `addr`, then the high byte at `(addr+1) mod 256` (R11). -/
def State.writeData16 (s : State) (a : Byte) (w : Addr) : State :=
  (s.writeData a (lo w)).writeData (a + 1) (hi w)

/-- One byte of code memory placed from outside (70_reset_and_hazards.md R241; log 36). No instruction
does this (R11). -/
def State.placeCode (s : State) (a : Addr) (v : Byte) : State :=
  { s with code := writeCell s.code a.toNat v }

/-- Bytes placed at consecutive ascending code addresses, from outside. -/
def State.placeProgram (s : State) (a : Addr) : List Byte → State
  | [] => s
  | b :: rest => (s.placeCode a b).placeProgram (a + 1) rest

/-! ## The stack (41_stack.md R137; every SP computation modulo 256, 10_state.md R24) -/

/-- A byte pushed: SP is decremented, then the byte is written at SP (41_stack.md R130). -/
def State.pushByte (s : State) (v : Byte) : State :=
  let s' := s.setSp (s.sp - 1)
  s'.writeData s'.sp v

/-- A 16-bit value pushed: SP lowered by 2, the low byte at SP and the high byte at SP + 1
(43_control.md R175). -/
def State.pushWord (s : State) (w : Addr) : State :=
  let s' := s.setSp (s.sp - 2)
  s'.writeData16 s'.sp w

/-! ## Taking an interrupt and returning from one -/

/-- The code address of vector `v`: 0xFFE0 + 4v (60_exceptions.md R211). -/
def vectorAddress (v : BitVec 3) : Addr := 0xFFE0 + BitVec.ofNat 16 (4 * v.toNat)

/-- `enter_interrupt(v, ret)` of R215: the return address pushed, then the old PS, then PC and PS loaded
from vector `v`. The fourth byte of the vector is not read. (log 12) -/
def enterInterrupt (v : BitVec 3) (ret : Addr) (s : State) : State :=
  let pushed := (s.pushWord ret).pushByte s.ps
  let jumped := pushed.setPc (pushed.readCode16 (vectorAddress v))
  jumped.setPs (pushed.readCode (vectorAddress v + 2))

/-- `take_interrupt(v)` of R215: a hardware interrupt at a boundary; the return address is PC, the
address of the instruction not executed (log 11), and the clock runs afterwards (R214). -/
def takeInterrupt (v : BitVec 3) (s : State) : State := (enterInterrupt v s.pc s).setClock .running

/-- The return that `rti` performs (43_control.md R178): PS popped, then PC. -/
def returnFromInterrupt (s : State) : State :=
  let s₁ := s.setPs (s.readData s.sp)
  let s₂ := s₁.setSp (s₁.sp + 1)
  let s₃ := s₂.setPc (s₂.readData16 s₂.sp)
  s₃.setSp (s₃.sp + 2)

/-! ## The inputs of a boundary (60_exceptions.md R212, R219) -/

/-- What the outside presents where the state lists nothing: no reset (log 4), and a request or none with
some vector number, both free (log 5). -/
def unlistedInput (t : Nat) : BoundaryInput :=
  { reset := none, irqReq := Config.irqReq t, irqVector := Config.irqVector t }

/-- What the outside presents at this boundary. -/
def State.input (s : State) : BoundaryInput :=
  match s.inputs with
  | [] => unlistedInput s.boundary
  | x :: _ => x

/-- The next boundary: its index is one higher, and this boundary's input is used up. -/
def State.tick (s : State) : State := { s with inputs := s.inputs.tail, boundary := s.boundary + 1 }

/-- Whether an interrupt is taken at this boundary as far as PS and the request go: `irq_req(t)` and
PS.I = 1 (R213). -/
def State.interruptAccepted (s : State) : Bool := flagI s.ps && s.input.irqReq

/-- A reset with the memory contents the outside supplies (70_reset_and_hazards.md R240, R241; log 8):
every register and the clock as in `State.reset`; the parameters and the inputs are the outside's.
Under `arch = VonNeumann` there is one image (92_eei_decisions.md D17). -/
def applyReset (img : ResetImage) (s : State) : State :=
  { State.reset with
    code := loadImage Config.codeSize img.code
    data := match s.arch with
      | .harvard => loadImage Config.dataSize img.data
      | .vonNeumann => []
    arch := s.arch
    ldcHigh := s.ldcHigh
    inputs := s.inputs
    boundary := s.boundary }

end Sys2Proof.Machine
end

