-- ==== Sys2Proof/Machine/Operands.lean ====
section
/-! DEFINITION. The addressing modes of the machine, complete (spec/40_memory_access.md R124).
Register operands (a) are `State.reg` and `State.setReg`; immediate operands (b) and the absolute
targets (f) of `jmp` and `jsr` are arguments of the instruction (spec/30_encoding.md R85); the stack
operands (d) are at SP plus or minus a constant, modulo 256. -/

namespace Sys2Proof.Machine

/-- (c) Register indirect in data memory, for `ld` and `st`: the address is the content of the register,
with no offset and no change to it (R121, R123). -/
def dataAddress (s : State) (rn : Reg) : Byte := s.reg rn

/-- (c) Register indirect in code memory, for `ldc`: `{ldc_high, r[n]}` (R122; log 3). -/
def codeAddress (s : State) (rn : Reg) : Addr := concat16 s.ldcHigh (s.reg rn)

/-- (d) The stack operand at SP + `k`, modulo 256 (10_state.md R24). -/
def stackAddress (s : State) (k : Nat) : Byte := s.sp + BitVec.ofNat 8 k

/-- (d) The stack operand at SP - `k`, modulo 256. -/
def stackAddressBelow (s : State) (k : Nat) : Byte := s.sp - BitVec.ofNat 8 k

/-- SP plus an immediate byte, modulo 256, for `ldsa` and `addsp` (41_stack.md R132, R133). -/
def stackPlus (s : State) (imm : Byte) : Byte := s.sp + imm

/-- (e) The target of a taken branch: PC after both bytes are fetched, plus the sign-extended offset,
modulo 65536 (43_control.md R170; log 22, log 23). -/
def branchTarget (pcAfter : Addr) (off : Byte) : Addr := pcAfter + sext16 off

end Sys2Proof.Machine
end

