-- ==== Sys2Proof/Machine/Arithmetic.lean ====
section
/-! DEFINITION. The arithmetic, logic and shift instructions (spec/42_arithmetic.md R140 to R156). Each
is one byte long, writes C, V, Z and N, and leaves bits 7:4 of PS as they are (spec/10_state.md R35).
A meaning starts with PC = A (log 40). -/

namespace Sys2Proof.Machine

/-- `move rn, rm` (R141): rn is copied to rm (log 19). -/
def execMove (rn rm : Reg) (s : State) : Host.Outcome State Fault Refusal :=
  let s' := s.advance 1
  .next (s'.putResult rm (logic8 (s'.reg rn)))

/-- `add rn, rm` (R142). -/
def execAdd (rn rm : Reg) (s : State) : Host.Outcome State Fault Refusal :=
  let s' := s.advance 1
  .next (s'.putResult rm (add8 (s'.reg rn) (s'.reg rm) false))

/-- `addc rn, rm` (R143). -/
def execAddc (rn rm : Reg) (s : State) : Host.Outcome State Fault Refusal :=
  let s' := s.advance 1
  .next (s'.putResult rm (add8 (s'.reg rn) (s'.reg rm) (flagC s'.ps)))

/-- `sub rn, rm` (R144): rn - rm, into rm. -/
def execSub (rn rm : Reg) (s : State) : Host.Outcome State Fault Refusal :=
  let s' := s.advance 1
  .next (s'.putResult rm (sub8 (s'.reg rn) (s'.reg rm)))

/-- `cmp rn, rm` (R145): the flags of rn - rm, the result discarded. -/
def execCmp (rn rm : Reg) (s : State) : Host.Outcome State Fault Refusal :=
  let s' := s.advance 1
  .next (s'.putFlags (sub8 (s'.reg rn) (s'.reg rm)))

/-- `neg rn` (R146): 0 - rn (log 17). -/
def execNeg (rn : Reg) (s : State) : Host.Outcome State Fault Refusal :=
  let s' := s.advance 1
  .next (s'.putResult rn (sub8 0x00 (s'.reg rn)))

/-- `inc rn` (R147; log 15). -/
def execInc (rn : Reg) (s : State) : Host.Outcome State Fault Refusal :=
  let s' := s.advance 1
  .next (s'.putResult rn (add8 (s'.reg rn) 0x01 false))

/-- `dec rn` (R148; log 16). -/
def execDec (rn : Reg) (s : State) : Host.Outcome State Fault Refusal :=
  let s' := s.advance 1
  .next (s'.putResult rn (sub8 (s'.reg rn) 0x01))

/-- `and rn, rm` (R149). -/
def execAnd (rn rm : Reg) (s : State) : Host.Outcome State Fault Refusal :=
  let s' := s.advance 1
  .next (s'.putResult rm (logic8 (s'.reg rn &&& s'.reg rm)))

/-- `or rn, rm` (R150). -/
def execOr (rn rm : Reg) (s : State) : Host.Outcome State Fault Refusal :=
  let s' := s.advance 1
  .next (s'.putResult rm (logic8 (s'.reg rn ||| s'.reg rm)))

/-- `xor rn, rm` (R151). -/
def execXor (rn rm : Reg) (s : State) : Host.Outcome State Fault Refusal :=
  let s' := s.advance 1
  .next (s'.putResult rm (logic8 (s'.reg rn ^^^ s'.reg rm)))

/-- `not rn` (R152). -/
def execNot (rn : Reg) (s : State) : Host.Outcome State Fault Refusal :=
  let s' := s.advance 1
  .next (s'.putResult rn (logic8 (~~~(s'.reg rn))))

/-- `shra rn` (R153). -/
def execShra (rn : Reg) (s : State) : Host.Outcome State Fault Refusal :=
  let s' := s.advance 1
  .next (s'.putResult rn (shra8 (s'.reg rn)))

/-- `shla rn` (R154). -/
def execShla (rn : Reg) (s : State) : Host.Outcome State Fault Refusal :=
  let s' := s.advance 1
  .next (s'.putResult rn (shla8 (s'.reg rn)))

/-- `shr rn` (R155). -/
def execShr (rn : Reg) (s : State) : Host.Outcome State Fault Refusal :=
  let s' := s.advance 1
  .next (s'.putResult rn (shr8 (s'.reg rn) (flagC s'.ps)))

/-- `rol rn` (R156). -/
def execRol (rn : Reg) (s : State) : Host.Outcome State Fault Refusal :=
  let s' := s.advance 1
  .next (s'.putResult rn (rol8 (s'.reg rn)))

end Sys2Proof.Machine
end

