-- ==== Sys2Proof/Machine/ClockControl.lean ====
section
/-! DEFINITION. The clock control instructions (spec/44_clock_control.md R190, R191). Their net effect on
PC is none: PC stays at the instruction (spec/10_state.md R26). -/

namespace Sys2Proof.Machine

/-- `halt` (R190). -/
def execHalt (s : State) : Host.Outcome State Fault Refusal :=
  .next (s.setClock .halted)

/-- `wait` (R191). -/
def execWait (s : State) : Host.Outcome State Fault Refusal :=
  .next (s.setClock .waiting)

end Sys2Proof.Machine
end

