-- ==== Sys2Proof/Machine/Control.lean ====
section
/-! DEFINITION. The control instructions (spec/43_control.md R170 to R179). A meaning starts with PC = A
(log 40). -/

namespace Sys2Proof.Machine

/-- `b<cond>` (R170): both bytes are fetched; if the condition holds, the offset is added to PC. -/
def branch (c : Cond) (off : Byte) (s : State) : State :=
  let s' := s.advance 2
  if condHolds c s'.ps then s'.setPc (branchTarget s'.pc off) else s'

/-- `beq` (R170, R171). -/
def execBeq (off : Byte) (s : State) : Host.Outcome State Fault Refusal :=
  .next (branch .eq off s)

/-- `bne` (R170, R171). -/
def execBne (off : Byte) (s : State) : Host.Outcome State Fault Refusal :=
  .next (branch .ne off s)

/-- `bhs` (R170, R171). -/
def execBhs (off : Byte) (s : State) : Host.Outcome State Fault Refusal :=
  .next (branch .hs off s)

/-- `blo` (R170, R171). -/
def execBlo (off : Byte) (s : State) : Host.Outcome State Fault Refusal :=
  .next (branch .lo off s)

/-- `bmi` (R170, R171). -/
def execBmi (off : Byte) (s : State) : Host.Outcome State Fault Refusal :=
  .next (branch .mi off s)

/-- `bpl` (R170, R171). -/
def execBpl (off : Byte) (s : State) : Host.Outcome State Fault Refusal :=
  .next (branch .pl off s)

/-- `bvs` (R170, R171). -/
def execBvs (off : Byte) (s : State) : Host.Outcome State Fault Refusal :=
  .next (branch .vs off s)

/-- `bvc` (R170, R171). -/
def execBvc (off : Byte) (s : State) : Host.Outcome State Fault Refusal :=
  .next (branch .vc off s)

/-- `bhi` (R170, R171). -/
def execBhi (off : Byte) (s : State) : Host.Outcome State Fault Refusal :=
  .next (branch .hi off s)

/-- `bls` (R170, R171). -/
def execBls (off : Byte) (s : State) : Host.Outcome State Fault Refusal :=
  .next (branch .ls off s)

/-- `bge` (R170, R171). -/
def execBge (off : Byte) (s : State) : Host.Outcome State Fault Refusal :=
  .next (branch .ge off s)

/-- `blt` (R170, R171). -/
def execBlt (off : Byte) (s : State) : Host.Outcome State Fault Refusal :=
  .next (branch .lt off s)

/-- `bgt` (R170, R171). -/
def execBgt (off : Byte) (s : State) : Host.Outcome State Fault Refusal :=
  .next (branch .gt off s)

/-- `ble` (R170, R171). -/
def execBle (off : Byte) (s : State) : Host.Outcome State Fault Refusal :=
  .next (branch .le off s)

/-- `br` (R170, R171). -/
def execBr (off : Byte) (s : State) : Host.Outcome State Fault Refusal :=
  .next (branch .always off s)

/-- `bfalse` (R170, R171). -/
def execBfalse (off : Byte) (s : State) : Host.Outcome State Fault Refusal :=
  .next (branch .never off s)

/-- `jmp const` (R174). -/
def execJmp (target : Addr) (s : State) : Host.Outcome State Fault Refusal :=
  .next ((s.advance 3).setPc target)

/-- `jsr const` (R175): the address after the instruction is pushed. -/
def execJsr (target : Addr) (s : State) : Host.Outcome State Fault Refusal :=
  let s' := s.advance 3
  .next ((s'.pushWord s'.pc).setPc target)

/-- `rts` (R176). -/
def execRts (s : State) : Host.Outcome State Fault Refusal :=
  let s' := s.advance 1
  let jumped := s'.setPc (s'.readData16 s'.sp)
  .next (jumped.setSp (jumped.sp + 2))

/-- `ioi` (R177): the interrupt entry, whatever I is, with the vector number the outside presents at this
boundary and the address after the instruction as return address (log 27). -/
def execIoi (s : State) : Host.Outcome State Fault Refusal :=
  let s' := s.advance 1
  .next (enterInterrupt s'.input.irqVector s'.pc s')

/-- `rti` (R178). -/
def execRti (s : State) : Host.Outcome State Fault Refusal :=
  .next (returnFromInterrupt (s.advance 1))

/-- `crc` (R179): PC exchanged with the 16-bit value at SP (log 28). -/
def execCrc (s : State) : Host.Outcome State Fault Refusal :=
  let s' := s.advance 1
  .next ((s'.writeData16 s'.sp s'.pc).setPc (s'.readData16 s'.sp))

end Sys2Proof.Machine
end

