-- ==== Sys2Proof/Machine/MemoryAccess.lean ====
section
/-! DEFINITION. The memory access instructions (spec/40_memory_access.md R120 to R123). A meaning starts
at the boundary before the instruction, with PC = A, and moves PC past the instruction's bytes itself
(log 40). -/

namespace Sys2Proof.Machine

/-- `ldi rn, const` (R120). -/
def execLdi (rn : Reg) (imm : Byte) (s : State) : Host.Outcome State Fault Refusal :=
  .next ((s.advance 2).setReg rn imm)

/-- `ld rn, rm` (R121): the address is read before the register is written. -/
def execLd (rn rm : Reg) (s : State) : Host.Outcome State Fault Refusal :=
  let s' := s.advance 1
  .next (s'.setReg rm (s'.readData (dataAddress s' rn)))

/-- `ldc rn, rm` (R122). -/
def execLdc (rn rm : Reg) (s : State) : Host.Outcome State Fault Refusal :=
  let s' := s.advance 1
  .next (s'.setReg rm (s'.readCode (codeAddress s' rn)))

/-- `st rn, rm` (R123). -/
def execSt (rn rm : Reg) (s : State) : Host.Outcome State Fault Refusal :=
  let s' := s.advance 1
  .next (s'.writeData (dataAddress s' rn) (s'.reg rm))

end Sys2Proof.Machine
end

