-- ==== Sys2Proof/Machine/Stack.lean ====
section
/-! DEFINITION. The stack instructions (spec/41_stack.md R130 to R136). A meaning starts with PC = A
(log 40). -/

namespace Sys2Proof.Machine

/-- `push rn` (R130). -/
def execPush (rn : Reg) (s : State) : Host.Outcome State Fault Refusal :=
  let s' := s.advance 1
  .next (s'.pushByte (s'.reg rn))

/-- `pop rn` (R131). -/
def execPop (rn : Reg) (s : State) : Host.Outcome State Fault Refusal :=
  let s' := s.advance 1
  let loaded := s'.setReg rn (s'.readData s'.sp)
  .next (loaded.setSp (loaded.sp + 1))

/-- `ldsa rn, const` (R132). -/
def execLdsa (rn : Reg) (imm : Byte) (s : State) : Host.Outcome State Fault Refusal :=
  let s' := s.advance 2
  .next (s'.setReg rn (stackPlus s' imm))

/-- `addsp const` (R133). -/
def execAddsp (imm : Byte) (s : State) : Host.Outcome State Fault Refusal :=
  let s' := s.advance 2
  .next (s'.setSp (stackPlus s' imm))

/-- `setsp const` (R134). -/
def execSetsp (imm : Byte) (s : State) : Host.Outcome State Fault Refusal :=
  .next ((s.advance 2).setSp imm)

/-- `pushall` (R135): r3, r2, r1, r0 to SP-1, SP-2, SP-3, SP-4, each address modulo 256. -/
def execPushall (s : State) : Host.Outcome State Fault Refusal :=
  let s' := s.advance 1
  let w := (((s'.writeData (stackAddressBelow s' 1) (s'.reg .r3)).writeData
    (stackAddressBelow s' 2) (s'.reg .r2)).writeData
    (stackAddressBelow s' 3) (s'.reg .r1)).writeData
    (stackAddressBelow s' 4) (s'.reg .r0)
  .next (w.setSp (stackAddressBelow s' 4))

/-- `popall` (R136): r0, r1, r2, r3 from SP, SP+1, SP+2, SP+3, each address modulo 256. -/
def execPopall (s : State) : Host.Outcome State Fault Refusal :=
  let s' := s.advance 1
  let w := (((s'.setReg .r0 (s'.readData (stackAddress s' 0))).setReg
    .r1 (s'.readData (stackAddress s' 1))).setReg
    .r2 (s'.readData (stackAddress s' 2))).setReg
    .r3 (s'.readData (stackAddress s' 3))
  .next (w.setSp (stackAddress s' 4))

end Sys2Proof.Machine
end

