-- ==== Sys2Proof/Machine/Dispatch.lean ====
section
/-! DEFINITION. `exec`: one arm for each constructor of `Instr`, in the order of
spec/opcode_table.json. -/

namespace Sys2Proof.Machine

def exec (i : Instr) (s : State) : Host.Outcome State Fault Refusal :=
  match i with
  | .move rn rm => Sys2Proof.Machine.execMove rn rm s
  | .add rn rm => Sys2Proof.Machine.execAdd rn rm s
  | .addc rn rm => Sys2Proof.Machine.execAddc rn rm s
  | .sub rn rm => Sys2Proof.Machine.execSub rn rm s
  | .and rn rm => Sys2Proof.Machine.execAnd rn rm s
  | .or rn rm => Sys2Proof.Machine.execOr rn rm s
  | .xor rn rm => Sys2Proof.Machine.execXor rn rm s
  | .cmp rn rm => Sys2Proof.Machine.execCmp rn rm s
  | .not rn => Sys2Proof.Machine.execNot rn s
  | .neg rn => Sys2Proof.Machine.execNeg rn s
  | .dec rn => Sys2Proof.Machine.execDec rn s
  | .inc rn => Sys2Proof.Machine.execInc rn s
  | .shr rn => Sys2Proof.Machine.execShr rn s
  | .shla rn => Sys2Proof.Machine.execShla rn s
  | .shra rn => Sys2Proof.Machine.execShra rn s
  | .rol rn => Sys2Proof.Machine.execRol rn s
  | .st rn rm => Sys2Proof.Machine.execSt rn rm s
  | .ld rn rm => Sys2Proof.Machine.execLd rn rm s
  | .push rn => Sys2Proof.Machine.execPush rn s
  | .pop rn => Sys2Proof.Machine.execPop rn s
  | .ldsa rn imm => Sys2Proof.Machine.execLdsa rn imm s
  | .addsp imm => Sys2Proof.Machine.execAddsp imm s
  | .setsp imm => Sys2Proof.Machine.execSetsp imm s
  | .pushall => Sys2Proof.Machine.execPushall s
  | .popall => Sys2Proof.Machine.execPopall s
  | .ldi rn imm => Sys2Proof.Machine.execLdi rn imm s
  | .halt => Sys2Proof.Machine.execHalt s
  | .wait => Sys2Proof.Machine.execWait s
  | .jsr target => Sys2Proof.Machine.execJsr target s
  | .rts => Sys2Proof.Machine.execRts s
  | .ioi => Sys2Proof.Machine.execIoi s
  | .rti => Sys2Proof.Machine.execRti s
  | .crc => Sys2Proof.Machine.execCrc s
  | .jmp target => Sys2Proof.Machine.execJmp target s
  | .beq off => Sys2Proof.Machine.execBeq off s
  | .bne off => Sys2Proof.Machine.execBne off s
  | .bhs off => Sys2Proof.Machine.execBhs off s
  | .blo off => Sys2Proof.Machine.execBlo off s
  | .bmi off => Sys2Proof.Machine.execBmi off s
  | .bpl off => Sys2Proof.Machine.execBpl off s
  | .bvs off => Sys2Proof.Machine.execBvs off s
  | .bvc off => Sys2Proof.Machine.execBvc off s
  | .bhi off => Sys2Proof.Machine.execBhi off s
  | .bls off => Sys2Proof.Machine.execBls off s
  | .bge off => Sys2Proof.Machine.execBge off s
  | .blt off => Sys2Proof.Machine.execBlt off s
  | .bgt off => Sys2Proof.Machine.execBgt off s
  | .ble off => Sys2Proof.Machine.execBle off s
  | .br off => Sys2Proof.Machine.execBr off s
  | .bfalse off => Sys2Proof.Machine.execBfalse off s
  | .ldc rn rm => Sys2Proof.Machine.execLdc rn rm s

end Sys2Proof.Machine
end

