-- ==== Sys2Proof/WellFormed.lean ====
section
/-! DEFINITION. Well-formedness. An `Instr` has no ill-formed value: its registers, immediates and
offsets are typed by their field widths, and within an assigned opcode every field value is legal
(spec/30_encoding.md R98). What can be ill-formed is the assembler's branch operand, the absolute
address of a target that the encoded offset must reach (R86, R105). -/

namespace Sys2Proof

/-- Every instruction is well-formed: "every 2-bit register number names a register, every 4-bit
condition code has a test, and every value of an immediate byte is legal" (R98). -/
def WellFormed (_ : Instr) : Bool := true

/-- `target - (A + 2)`, the number a branch at address `a` has to encode (R86). The difference is taken
on integers, not modulo 65536 (R9; log 35). -/
def branchDistance (a target : Addr) : Int := (target.toNat : Int) - ((a.toNat : Int) + 2)

/-- The assembler's check of a branch operand: "it must lie in -128..127" (R86). -/
def branchInReach (a target : Addr) : Bool :=
  decide (-128 ≤ branchDistance a target) && decide (branchDistance a target ≤ 127)

end Sys2Proof
end

