-- ==== Sys2Proof/Decode.lean ====
section
/-! DEFINITION. The decoder and, after it, the encoder (spec/30_encoding.md R80 to R98). -/

namespace Sys2Proof

/-- The 2-bit register number of 10_state.md R21: 00 is r0, 01 is r1, 10 is r2, 11 is r3. -/
def regOfBits (b : BitVec 2) : Reg :=
  match b.toNat with
  | 0 => .r0
  | 1 => .r1
  | 2 => .r2
  | _ => .r3

/-- Operand rn of format RR: bits 3:2 of the opcode byte (R81). -/
def rrFirst (b : Byte) : Reg := regOfBits (b.extractLsb' 2 2)

/-- Operand rm of format RR, and the register operand of formats R and RI: bits 1:0 (R81). -/
def lowReg (b : Byte) : Reg := regOfBits (b.extractLsb' 0 2)

/-- What the opcode byte alone determines (R80): the instruction, or the instruction but for the one
immediate byte (formats RI, I, B) or the 16-bit immediate (format A) that follows. -/
inductive Template where
  | whole (i : Instr)
  | needsByte (f : Byte → Instr)
  | needsAddr (f : Addr → Instr)

/-- The opcodes of 6 bits 100000 to 100111 (R87): format R. -/
def decodeUnary (b : Byte) : Template :=
  match (b.extractLsb' 2 3).toNat with
  | 0 => .whole (.not (lowReg b))
  | 1 => .whole (.neg (lowReg b))
  | 2 => .whole (.dec (lowReg b))
  | 3 => .whole (.inc (lowReg b))
  | 4 => .whole (.shr (lowReg b))
  | 5 => .whole (.shla (lowReg b))
  | 6 => .whole (.shra (lowReg b))
  | _ => .whole (.rol (lowReg b))

/-- The opcode bytes 0xC0 to 0xCF, by their bits 3:0 (R88). -/
def decodeStack (b : Byte) : Template :=
  match (b.extractLsb' 0 4).toNat with
  | 0 | 1 | 2 | 3 => .whole (.push (lowReg b))
  | 4 | 5 | 6 | 7 => .whole (.pop (lowReg b))
  | 8 | 9 | 10 | 11 => .needsByte (.ldsa (lowReg b))
  | 12 => .needsByte .addsp
  | 13 => .needsByte .setsp
  | 14 => .whole .pushall
  | _ => .whole .popall

/-- The opcode bytes 0xD0 to 0xDF, by their bits 3:0 (R88). The four bytes without an instruction are
0xDB, 0xDC, 0xDE and 0xDF (R96). `rts` is 0xD7 (R84; log 21). -/
def decodeSystem (b : Byte) : Option Template :=
  match (b.extractLsb' 0 4).toNat with
  | 0 | 1 | 2 | 3 => some (.needsByte (.ldi (lowReg b)))
  | 4 => some (.whole .halt)
  | 5 => some (.whole .wait)
  | 6 => some (.needsAddr .jsr)
  | 7 => some (.whole .rts)
  | 8 => some (.whole .ioi)
  | 9 => some (.whole .rti)
  | 10 => some (.whole .crc)
  | 13 => some (.needsAddr .jmp)
  | _ => none

/-- The opcode bytes 0xE0 to 0xEF: a branch on the condition in bits 3:0 (R81 format B, R171). -/
def decodeBranch (b : Byte) : Template :=
  match (b.extractLsb' 0 4).toNat with
  | 0 => .needsByte .beq
  | 1 => .needsByte .bne
  | 2 => .needsByte .bhs
  | 3 => .needsByte .blo
  | 4 => .needsByte .bmi
  | 5 => .needsByte .bpl
  | 6 => .needsByte .bvs
  | 7 => .needsByte .bvc
  | 8 => .needsByte .bhi
  | 9 => .needsByte .bls
  | 10 => .needsByte .bge
  | 11 => .needsByte .blt
  | 12 => .needsByte .bgt
  | 13 => .needsByte .ble
  | 14 => .needsByte .br
  | _ => .needsByte .bfalse

/-- The decoding algorithm of R87 on the opcode byte. `none` for the four unassigned bytes of R96. -/
def decodeOpcode (b : Byte) : Option Template :=
  match (b.extractLsb' 4 4).toNat with
  | 0 => some (.whole (.move (rrFirst b) (lowReg b)))
  | 1 => some (.whole (.add (rrFirst b) (lowReg b)))
  | 2 => some (.whole (.addc (rrFirst b) (lowReg b)))
  | 3 => some (.whole (.sub (rrFirst b) (lowReg b)))
  | 4 => some (.whole (.and (rrFirst b) (lowReg b)))
  | 5 => some (.whole (.or (rrFirst b) (lowReg b)))
  | 6 => some (.whole (.xor (rrFirst b) (lowReg b)))
  | 7 => some (.whole (.cmp (rrFirst b) (lowReg b)))
  | 8 | 9 => some (decodeUnary b)
  | 10 => some (.whole (.st (rrFirst b) (lowReg b)))
  | 11 => some (.whole (.ld (rrFirst b) (lowReg b)))
  | 12 => some (decodeStack b)
  | 13 => decodeSystem b
  | 14 => some (decodeBranch b)
  | _ => some (.whole (.ldc (rrFirst b) (lowReg b)))

/-- What decoding a byte sequence answers: the instruction and the bytes after it, or why there is
none. -/
inductive Decoded where
  /-- An instruction, and the bytes that follow it. -/
  | instr (i : Instr) (rest : List Byte)
  /-- The opcode byte is one of the four unassigned ones (R96). -/
  | unassigned (b : Byte)
  /-- The sequence ends before the instruction does. -/
  | truncated
  deriving DecidableEq, Repr

/-- Decoding of a byte sequence, opcode byte first, then the immediate byte, or the low byte and the
high byte of the 16-bit immediate (R80, 20_memory.md R52). -/
def decode : List Byte → Decoded
  | [] => .truncated
  | b :: rest =>
    match decodeOpcode b with
    | none => .unassigned b
    | some (.whole i) => .instr i rest
    | some (.needsByte f) =>
      match rest with
      | x :: rest' => .instr (f x) rest'
      | [] => .truncated
    | some (.needsAddr f) =>
      match rest with
      | l :: h :: rest' => .instr (f (concat16 h l)) rest'
      | _ => .truncated

/-- The length of an instruction from its opcode byte, as R89 lists it (1 for an unassigned byte too:
only the opcode byte is fetched, R96). -/
def lengthOfOpcode (b : Byte) : Nat :=
  if b = 0xD6 ∨ b = 0xDD then 3
  else if (0xC8 ≤ b.toNat ∧ b.toNat ≤ 0xCD) ∨ (0xD0 ≤ b.toNat ∧ b.toNat ≤ 0xD3)
      ∨ (0xE0 ≤ b.toNat ∧ b.toNat ≤ 0xEF) then 2
  else 1

/-- The bytes of an instruction word numbered as spec/opcode_table.json numbers it: byte 0 (the
opcode byte) is bits 7:0, byte 1 bits 15:8, byte 2 bits 23:16. Bits at `nbits` and above are zero. -/
def wordBytes (nbits w : Nat) : List Byte :=
  let v := w % 2 ^ nbits
  [BitVec.ofNat 8 v, BitVec.ofNat 8 (v / 256), BitVec.ofNat 8 (v / 65536)]

/-- The instruction the decoder reads from an instruction word of the opcode table. -/
def decodeTableWord (nbits w : Nat) : Option Instr :=
  match decode (wordBytes nbits w) with
  | .instr i _ => some i
  | _ => none

/-! ## The encoder (R81, R88) -/

/-- The 2-bit number of a register (10_state.md R21). -/
def regBits : Reg → BitVec 2
  | .r0 => 0b00
  | .r1 => 0b01
  | .r2 => 0b10
  | .r3 => 0b11

/-- Byte 0 of format RR: `oooo nn mm`. -/
def byteRR (op : BitVec 4) (rn rm : Reg) : Byte := op ++ (regBits rn ++ regBits rm)

/-- Byte 0 of formats R and RI: `oooooo nn`. -/
def byteR (op : BitVec 6) (rn : Reg) : Byte := op ++ regBits rn

/-- The 4-bit code of a condition (43_control.md R171). -/
def condCode : Cond → BitVec 4
  | .eq => 0x0
  | .ne => 0x1
  | .hs => 0x2
  | .lo => 0x3
  | .mi => 0x4
  | .pl => 0x5
  | .vs => 0x6
  | .vc => 0x7
  | .hi => 0x8
  | .ls => 0x9
  | .ge => 0xA
  | .lt => 0xB
  | .gt => 0xC
  | .le => 0xD
  | .always => 0xE
  | .never => 0xF

/-- Format B: `1110 cccc`, then the offset byte. -/
def bytesB (c : Cond) (off : Byte) : List Byte := [0b1110#4 ++ condCode c, off]

/-- The bytes of an instruction, in fetch order (R81, R88). -/
def encode : Instr → List Byte
  | .move rn rm => [byteRR 0b0000 rn rm]
  | .add rn rm => [byteRR 0b0001 rn rm]
  | .addc rn rm => [byteRR 0b0010 rn rm]
  | .sub rn rm => [byteRR 0b0011 rn rm]
  | .and rn rm => [byteRR 0b0100 rn rm]
  | .or rn rm => [byteRR 0b0101 rn rm]
  | .xor rn rm => [byteRR 0b0110 rn rm]
  | .cmp rn rm => [byteRR 0b0111 rn rm]
  | .not rn => [byteR 0b100000 rn]
  | .neg rn => [byteR 0b100001 rn]
  | .dec rn => [byteR 0b100010 rn]
  | .inc rn => [byteR 0b100011 rn]
  | .shr rn => [byteR 0b100100 rn]
  | .shla rn => [byteR 0b100101 rn]
  | .shra rn => [byteR 0b100110 rn]
  | .rol rn => [byteR 0b100111 rn]
  | .st rn rm => [byteRR 0b1010 rn rm]
  | .ld rn rm => [byteRR 0b1011 rn rm]
  | .push rn => [byteR 0b110000 rn]
  | .pop rn => [byteR 0b110001 rn]
  | .ldsa rn imm => [byteR 0b110010 rn, imm]
  | .addsp imm => [0b11001100, imm]
  | .setsp imm => [0b11001101, imm]
  | .pushall => [0b11001110]
  | .popall => [0b11001111]
  | .ldi rn imm => [byteR 0b110100 rn, imm]
  | .halt => [0b11010100]
  | .wait => [0b11010101]
  | .jsr target => [0b11010110, lo target, hi target]
  | .rts => [0b11010111]
  | .ioi => [0b11011000]
  | .rti => [0b11011001]
  | .crc => [0b11011010]
  | .jmp target => [0b11011101, lo target, hi target]
  | .beq off => bytesB .eq off
  | .bne off => bytesB .ne off
  | .bhs off => bytesB .hs off
  | .blo off => bytesB .lo off
  | .bmi off => bytesB .mi off
  | .bpl off => bytesB .pl off
  | .bvs off => bytesB .vs off
  | .bvc off => bytesB .vc off
  | .bhi off => bytesB .hi off
  | .bls off => bytesB .ls off
  | .bge off => bytesB .ge off
  | .blt off => bytesB .lt off
  | .bgt off => bytesB .gt off
  | .ble off => bytesB .le off
  | .br off => bytesB .always off
  | .bfalse off => bytesB .never off
  | .ldc rn rm => [byteRR 0b1111 rn rm]

/-- The length of an instruction in bytes (R81), format by format. -/
def Instr.length : Instr → Nat
  | .move _ _ | .add _ _ | .addc _ _ | .sub _ _ | .and _ _ | .or _ _ | .xor _ _ | .cmp _ _ => 1
  | .not _ | .neg _ | .dec _ | .inc _ | .shr _ | .shla _ | .shra _ | .rol _ => 1
  | .st _ _ | .ld _ _ | .ldc _ _ | .push _ | .pop _ => 1
  | .pushall | .popall | .halt | .wait | .rts | .ioi | .rti | .crc => 1
  | .ldsa _ _ | .addsp _ | .setsp _ | .ldi _ _ => 2
  | .beq _ | .bne _ | .bhs _ | .blo _ | .bmi _ | .bpl _ | .bvs _ | .bvc _ => 2
  | .bhi _ | .bls _ | .bge _ | .blt _ | .bgt _ | .ble _ | .br _ | .bfalse _ => 2
  | .jsr _ | .jmp _ => 3

end Sys2Proof
end

