-- ==== Sys2Proof/Machine/Fetch.lean ====
section
/-! DEFINITION. Fetching an instruction (spec/00_scope.md R12, spec/20_memory.md R52, R55), and what
happens at a boundary (spec/60_exceptions.md R219, R228). -/

namespace Sys2Proof.Machine

/-- The instruction at PC: its opcode byte, and as many further bytes as the opcode byte asks for, from
consecutive ascending code addresses, modulo 65536. `none` at an unassigned opcode byte. -/
def fetchInstr (s : State) : Option Instr :=
  match decodeOpcode (s.readCode s.pc) with
  | none => none
  | some (.whole i) => some i
  | some (.needsByte f) => some (f (s.readCode (s.pc + 1)))
  | some (.needsAddr f) => some (f (s.readCode16 (s.pc + 1)))

/-- The one thing that happens at a boundary, in the order of R219. -/
inductive Event where
  | reset (img : ResetImage)
  | halted
  | interrupt (v : BitVec 3)
  | waiting
  | instruction
  deriving DecidableEq, Repr

/-- Which event a boundary has: reset first, then a halted clock, then an accepted interrupt, then a
waiting clock, else the instruction at PC (R219, R228; log 32). -/
def boundaryEvent (s : State) : Event :=
  match s.input.reset with
  | some img => .reset img
  | none =>
    match s.clock with
    | .halted => .halted
    | .waiting => if s.interruptAccepted then .interrupt s.input.irqVector else .waiting
    | .running => if s.interruptAccepted then .interrupt s.input.irqVector else .instruction

/-- The state that an instruction's outcome leaves at the next boundary. -/
def toNextBoundary : Host.Outcome State Fault Refusal → Host.Outcome State Fault Refusal
  | .next t => .next t.tick
  | .fault r => .fault r
  | .refused r => .refused r

/-- The input of a boundary with its reset and its request withdrawn. -/
def BoundaryInput.withdrawn (x : BoundaryInput) : BoundaryInput :=
  { x with reset := none, irqReq := false }

/-- The state in which this boundary executes the instruction at PC: the clock runs, and if a reset or an
accepted interrupt stood in the way, the outside has withdrawn it (log 37). -/
def State.readyToExecute (s : State) : State :=
  match boundaryEvent s with
  | .instruction => s
  | _ => { s with clock := .running, inputs := s.input.withdrawn :: s.inputs.tail }

end Sys2Proof.Machine
end

