-- ==== Sys2Proof/Machine/Step.lean ====
section
/-! DEFINITION. One step of the machine (spec/60_exceptions.md R228), and placing the instruction that the
next step runs. -/

namespace Sys2Proof.Machine

/-- One boundary of the machine (R228; the order of events is R219's). Every outcome that goes on stands
at the next boundary. -/
def step (s : State) : Host.Outcome State Fault Refusal :=
  match boundaryEvent s with
  | .reset img => .next (applyReset img s).tick
  | .halted => .next s.tick
  | .interrupt v => .next (takeInterrupt v s).tick
  | .waiting => .next s.tick
  | .instruction =>
    match fetchInstr s with
    | some i => toNextBoundary (exec i s)
    | none => .fault (.illegalInstruction (s.readCode s.pc) (s.pc + 1))

/-- `s` with an instruction word of spec/opcode_table.json placed in code memory at PC, so that the next
step executes it (log 36, log 37). -/
def State.withFetchWord (s : State) (nbits w : Nat) : State :=
  (s.placeProgram s.pc (wordBytes nbits w)).readyToExecute

end Sys2Proof.Machine
end

