-- ==== Sys2Proof/Machine/AsmSyntax.lean ====
section
/-! DEFINITION. The tokens and the abstract syntax of the assembler, after the lexer and parser rules of
the manual's appendix A (spec/30_encoding.md R100 to R111). Syntax only: what the structured statements,
`rsect`, `tplate`, `ext` and `>` labels mean is not in the spec (R106, R107). -/

namespace Sys2Proof.Asm

/-- The keywords of the lexer (R110). -/
inductive Keyword where
  | kAsect | kBreak | kContinue | kDo | kElse | kEnd | kExt | kFi | kGoto | kIf | kIs | kMacro
  | kRestore | kRsect | kSave | kStays | kThen | kTplate | kUntil | kWend | kWhile | kLow | kHigh
  deriving DecidableEq, Repr

/-- The three number tokens of the lexer (R103, R110). -/
inductive NumberKind where
  | decimal
  | binary
  | hex
  deriving DecidableEq, Repr

/-- The tokens of the lexer (R110), but for comments and blanks, which are skipped. A number token holds
its kind and its value (R103). The text of the rules STRING and CHAR is damaged in the source (log 39): a
string or a character holds what stands between its quotes. -/
inductive Token where
  | keyword (k : Keyword)
  | word (s : String)
  | register (r : Reg)
  | number (kind : NumberKind) (n : Nat)
  | str (s : String)
  | character (s : String)
  | base64 (s : String)
  | lineMarkMarker
  | dot | comma | plus | minus | colon | asterisk | angleBracket | openParen | closeParen
  | newline
  | unexpected (c : Char)
  deriving DecidableEq, Repr

/-- `term` (R104, R111). -/
inductive Term where
  | number (n : Nat)
  | templateField (template field : String)
  | label (name : String)
  deriving DecidableEq, Repr

/-- `addr_expr` (R104, R111): signed terms, the first sign optional; `negative` says a minus. -/
structure SignedTerm where
  negative : Bool
  term : Term
  deriving DecidableEq, Repr

/-- An address expression: its first term and the further ones. -/
structure AddrExpr where
  first : SignedTerm
  more : List SignedTerm
  deriving DecidableEq, Repr

/-- `byte_specifier` (R104). -/
inductive ByteSpec where
  | low
  | high
  deriving DecidableEq, Repr

/-- `argument` (R111); `goto_argument` is one of the last two. -/
inductive Argument where
  | character (s : String)
  | str (s : String)
  | register (r : Reg)
  | addr (e : AddrExpr)
  | byte (b : ByteSpec) (e : AddrExpr)
  deriving DecidableEq, Repr

/-- `label_declaration` (R100): a name followed by `:` or by `>`. -/
structure LabelDecl where
  name : String
  angle : Bool
  deriving DecidableEq, Repr

/-- `line_mark` (R106): the line, the encoded file path and an optional word. -/
structure LineMark where
  line : Nat
  file : String
  word : Option String
  deriving DecidableEq, Repr

/-- One element of a `code_block` (R111). A branch mnemonic and a conjunction are words. -/
inductive Stmt where
  | breakStmt
  | continueStmt
  | standaloneLabel (l : LabelDecl) (ext : Bool)
  | instruction (l : Option LabelDecl) (mnemonic : String) (args : List Argument)
  /-- `if`: each condition is a code block, a branch mnemonic and, but for the last, a conjunction. -/
  | conditional (conditions : List (List Stmt × String × Option String)) (body : List Stmt)
      (orElse : Option (List Stmt))
  | whileLoop (condition : List Stmt) (mnemonic : String) (body : List Stmt)
  | untilLoop (body : List Stmt) (mnemonic : String)
  | saveRestore (saved : Reg) (body : List Stmt) (restored : Option Reg)
  | goto (mnemonic : String) (target : Argument)
  | mark (m : LineMark)
  deriving Repr

/-- The header of a section (R106). -/
inductive SectionHeader where
  | asect (address : Nat)
  | rsect (name : String)
  | tplate (name : String)
  deriving DecidableEq, Repr

/-- `section` (R111). -/
structure AsmSection where
  header : SectionHeader
  body : List Stmt
  deriving Repr

/-- `program` (R106, R111). -/
structure Program where
  marks : List LineMark
  sections : List AsmSection
  deriving Repr

end Sys2Proof.Asm
end

