-- ==== Sys2Proof/Machine/AsmLexer.lean ====
section
/-! DEFINITION. The lexer of the assembler (spec/30_encoding.md R100, R102, R103, R110). At every place
the longest match counts; of two rules that match the same text the earlier one. -/

namespace Sys2Proof.Asm

/-- The text of a keyword. -/
def keywordText : Keyword → String
  | .kAsect => "asect"
  | .kBreak => "break"
  | .kContinue => "continue"
  | .kDo => "do"
  | .kElse => "else"
  | .kEnd => "end"
  | .kExt => "ext"
  | .kFi => "fi"
  | .kGoto => "goto"
  | .kIf => "if"
  | .kIs => "is"
  | .kMacro => "macro"
  | .kRestore => "restore"
  | .kRsect => "rsect"
  | .kSave => "save"
  | .kStays => "stays"
  | .kThen => "then"
  | .kTplate => "tplate"
  | .kUntil => "until"
  | .kWend => "wend"
  | .kWhile => "while"
  | .kLow => "low"
  | .kHigh => "high"

/-- Every keyword, in the order of the lexer's rules. -/
def allKeywords : List Keyword :=
  [.kAsect, .kBreak, .kContinue, .kDo, .kElse, .kEnd, .kExt, .kFi, .kGoto, .kIf, .kIs, .kMacro,
    .kRestore, .kRsect, .kSave, .kStays, .kThen, .kTplate, .kUntil, .kWend, .kWhile, .kLow, .kHigh]

/-- `[a-zA-Z_]`. -/
def isWordStart (c : Char) : Bool :=
  ('a' ≤ c && c ≤ 'z') || ('A' ≤ c && c ≤ 'Z') || c == '_'

/-- `[0-9]`. -/
def isDecimal (c : Char) : Bool := '0' ≤ c && c ≤ '9'

/-- `[a-zA-Z_0-9]`. -/
def isWordChar (c : Char) : Bool := isWordStart c || isDecimal c

/-- `[0-9a-fA-F]`. -/
def isHex (c : Char) : Bool := isDecimal c || ('a' ≤ c && c ≤ 'f') || ('A' ≤ c && c ≤ 'F')

/-- `[a-zA-Z0-9/+=]`. -/
def isBase64 (c : Char) : Bool :=
  ('a' ≤ c && c ≤ 'z') || ('A' ≤ c && c ≤ 'Z') || isDecimal c || c == '/' || c == '+' || c == '='

/-- The value of a digit in any of the three bases. -/
def digitValue (c : Char) : Nat :=
  if isDecimal c then c.toNat - '0'.toNat
  else if 'a' ≤ c && c ≤ 'f' then c.toNat - 'a'.toNat + 10
  else c.toNat - 'A'.toNat + 10

/-- The value of a run of digits. -/
def digitsValue (base : Nat) (ds : List Char) : Nat :=
  ds.foldl (fun n c => n * base + digitValue c) 0

/-- The register that a word names (R102), if it is one of `r0` to `r3`. -/
def registerOfWord (s : String) : Option Reg :=
  if s = "r0" then some .r0
  else if s = "r1" then some .r1
  else if s = "r2" then some .r2
  else if s = "r3" then some .r3
  else none

/-- The token of a run of word characters: a keyword, a register, or else a word. -/
def wordToken (s : String) : Token :=
  match allKeywords.find? fun k => keywordText k == s with
  | some k => .keyword k
  | none =>
    match registerOfWord s with
    | some r => .register r
    | none => .word s

/-- A number at the start of the text, with what follows it (R103): `0b` and `0x` count only with a
digit after them. -/
def lexNumber (cs : List Char) : Token × List Char :=
  match cs with
  | '0' :: 'b' :: rest =>
    if (rest.takeWhile fun c => c == '0' || c == '1').isEmpty then (.number .decimal 0, 'b' :: rest)
    else (.number .binary (digitsValue 2 (rest.takeWhile fun c => c == '0' || c == '1')),
      rest.dropWhile fun c => c == '0' || c == '1')
  | '0' :: 'x' :: rest =>
    if (rest.takeWhile isHex).isEmpty then (.number .decimal 0, 'x' :: rest)
    else (.number .hex (digitsValue 16 (rest.takeWhile isHex)), rest.dropWhile isHex)
  | _ => (.number .decimal (digitsValue 10 (cs.takeWhile isDecimal)), cs.dropWhile isDecimal)

/-- A word, a keyword, a register or a file path at the start of the text: `fp-` with at least one
character of its alphabet after it is longer than the word `fp`. -/
def lexWord (cs : List Char) : Token × List Char :=
  match cs with
  | 'f' :: 'p' :: '-' :: rest =>
    if (rest.takeWhile isBase64).isEmpty then (.word "fp", '-' :: rest)
    else (.base64 (String.ofList (rest.takeWhile isBase64)), rest.dropWhile isBase64)
  | _ => (wordToken (String.ofList (cs.takeWhile isWordChar)), cs.dropWhile isWordChar)

/-- A string after its opening quote, up to the next quote on the same line. A string with a backslash is
not read: the rule for escapes is damaged in the source (log 39). -/
def lexString (rest : List Char) : Token × List Char :=
  let body := rest.takeWhile fun c => c != '"' && c != '\n' && c != '\\'
  match rest.dropWhile fun c => c != '"' && c != '\n' && c != '\\' with
  | '"' :: after => (.str (String.ofList body), after)
  | _ => (.unexpected '"', rest)

/-- A character after its opening quote: one character and the closing quote. The delimiter is DEDUCED, and
an escape is not read: the rule is damaged in the source (log 39). -/
def lexCharacter : List Char → Token × List Char
  | c :: '\'' :: rest =>
    if c == '\'' || c == '"' || c == '\n' || c == '\\' then (.unexpected '\'', c :: '\'' :: rest)
    else (.character (String.ofList [c]), rest)
  | rest => (.unexpected '\'', rest)

/-- The token at the start of a text, with what follows it; `none` where a blank or a comment is skipped.
DESIGN CHOICE (log 44): a character above U+FFFE, which no lexer rule matches, is an unexpected token like
any other that starts no token. -/
def lexOne : List Char → Option Token × List Char
  | [] => (none, [])
  | ' ' :: rest => (none, rest)
  | '\t' :: rest => (none, rest)
  | '#' :: rest => (none, rest.dropWhile (· != '\n'))
  | '\r' :: '\n' :: rest => (some .newline, rest)
  | '\n' :: rest => (some .newline, rest)
  | '-' :: '|' :: rest => (some .lineMarkMarker, rest)
  | '.' :: rest => (some .dot, rest)
  | ',' :: rest => (some .comma, rest)
  | '+' :: rest => (some .plus, rest)
  | '-' :: rest => (some .minus, rest)
  | ':' :: rest => (some .colon, rest)
  | '*' :: rest => (some .asterisk, rest)
  | '>' :: rest => (some .angleBracket, rest)
  | '(' :: rest => (some .openParen, rest)
  | ')' :: rest => (some .closeParen, rest)
  | '"' :: rest => let r := lexString rest; (some r.1, r.2)
  | '\'' :: rest => let r := lexCharacter rest; (some r.1, r.2)
  | c :: rest =>
    if isDecimal c then let r := lexNumber (c :: rest); (some r.1, r.2)
    else if isWordStart c then let r := lexWord (c :: rest); (some r.1, r.2)
    else (some (.unexpected c), rest)

/-- The tokens of a text. The first argument bounds the number of tokens and blanks; the length of the
text is enough. -/
def lexAll : Nat → List Char → List Token
  | 0, _ => []
  | _, [] => []
  | fuel + 1, c :: cs =>
    match lexOne (c :: cs) with
    | (some t, rest) => t :: lexAll fuel rest
    | (none, rest) => lexAll fuel rest

/-- The tokens of a source text. -/
def lex (source : String) : List Token := lexAll source.toList.length source.toList

end Sys2Proof.Asm
end

