-- ==== Sys2Proof/Machine/AsmParser.lean ====
section
/-! DEFINITION. The parser of the assembler, rule by rule after spec/30_encoding.md R111. A parser takes
the tokens and answers what it read and the tokens after it, or `none`. -/

namespace Sys2Proof.Asm

/-- What a parser of `α` answers. -/
abbrev Parsed (α : Type) := Option (α × List Token)

/-- `NEWLINE*`. -/
def skipNewlines : List Token → List Token
  | .newline :: rest => skipNewlines rest
  | ts => ts

/-- `NEWLINE+`. -/
def newlines : List Token → Option (List Token)
  | .newline :: rest => some (skipNewlines rest)
  | _ => none

/-- `name`: a word or any keyword (R110). -/
def parseName : List Token → Parsed String
  | .word s :: rest => some (s, rest)
  | .keyword k :: rest => some (keywordText k, rest)
  | _ => none

/-- A `WORD`: `instruction`, `branch_mnemonic` and `conjunction`. -/
def parseWord : List Token → Parsed String
  | .word s :: rest => some (s, rest)
  | _ => none

/-- `term`. -/
def parseTerm : List Token → Parsed Term
  | .number _ n :: rest => some (.number n, rest)
  | ts =>
    match parseName ts with
    | none => none
    | some (x, .dot :: rest) =>
      match parseName rest with
      | some (y, rest') => some (.templateField x y, rest')
      | none => none
    | some (x, rest) => some (.label x, rest)

/-- `add_term*`. -/
def parseAddTerms : Nat → List Token → Parsed (List SignedTerm)
  | 0, ts => some ([], ts)
  | fuel + 1, .plus :: rest =>
    match parseTerm rest with
    | none => none
    | some (t, rest') => (parseAddTerms fuel rest').map fun r => ({ negative := false, term := t } :: r.1, r.2)
  | fuel + 1, .minus :: rest =>
    match parseTerm rest with
    | none => none
    | some (t, rest') => (parseAddTerms fuel rest').map fun r => ({ negative := true, term := t } :: r.1, r.2)
  | _, ts => some ([], ts)

/-- `first_term`: an optional sign and a term. -/
def parseFirstTerm : List Token → Parsed SignedTerm
  | .plus :: rest => (parseTerm rest).map fun r => ({ negative := false, term := r.1 }, r.2)
  | .minus :: rest => (parseTerm rest).map fun r => ({ negative := true, term := r.1 }, r.2)
  | ts => (parseTerm ts).map fun r => ({ negative := false, term := r.1 }, r.2)

/-- `addr_expr`. -/
def parseAddrExpr (ts : List Token) : Parsed AddrExpr :=
  match parseFirstTerm ts with
  | none => none
  | some (f, rest) => (parseAddTerms rest.length rest).map fun r => ({ first := f, more := r.1 }, r.2)

/-- The rest of a `byte_expr` after its specifier. -/
def parseByteExpr (b : ByteSpec) : List Token → Parsed Argument
  | .openParen :: rest =>
    match parseAddrExpr rest with
    | some (e, .closeParen :: rest') => some (.byte b e, rest')
    | _ => none
  | _ => none

/-- `goto_argument`: an address expression or a byte expression. -/
def parseGotoArgument : List Token → Parsed Argument
  | .keyword .kLow :: .openParen :: rest => parseByteExpr .low (.openParen :: rest)
  | .keyword .kHigh :: .openParen :: rest => parseByteExpr .high (.openParen :: rest)
  | ts => (parseAddrExpr ts).map fun r => (.addr r.1, r.2)

/-- `argument`. -/
def parseArgument : List Token → Parsed Argument
  | .character s :: rest => some (.character s, rest)
  | .str s :: rest => some (.str s, rest)
  | .register r :: rest => some (.register r, rest)
  | ts => parseGotoArgument ts

/-- `arguments`, after the first one: `(COMMA argument)*`. -/
def parseMoreArguments : Nat → List Token → Parsed (List Argument)
  | fuel + 1, .comma :: rest =>
    match parseArgument rest with
    | none => none
    | some (a, rest') => (parseMoreArguments fuel rest').map fun r => (a :: r.1, r.2)
  | _, ts => some ([], ts)

/-- `arguments?` before the end of a line. -/
def parseArguments : List Token → Parsed (List Argument)
  | .newline :: rest => some ([], .newline :: rest)
  | ts =>
    match parseArgument ts with
    | none => none
    | some (a, rest) => (parseMoreArguments rest.length rest).map fun r => (a :: r.1, r.2)

/-- `label_declaration`. -/
def parseLabelDecl (ts : List Token) : Parsed LabelDecl :=
  match parseName ts with
  | some (x, .colon :: rest) => some ({ name := x, angle := false }, rest)
  | some (x, .angleBracket :: rest) => some ({ name := x, angle := true }, rest)
  | _ => none

/-- `instruction arguments? NEWLINE+`, after an optional label. -/
def parseInstruction (l : Option LabelDecl) (ts : List Token) : Parsed Stmt :=
  match parseWord ts with
  | none => none
  | some (w, rest) =>
    match parseArguments rest with
    | none => none
    | some (args, rest') => (newlines rest').map fun r => (.instruction l w args, r)

/-- `line`. -/
def parseLine (ts : List Token) : Parsed Stmt :=
  match parseLabelDecl ts with
  | none => parseInstruction none ts
  | some (l, .keyword .kExt :: .newline :: rest) => some (.standaloneLabel l true, skipNewlines rest)
  | some (l, .newline :: rest) => some (.standaloneLabel l false, skipNewlines rest)
  | some (l, rest) => parseInstruction (some l) rest

/-- `line_mark`; its `line_number` is a decimal number. -/
def parseLineMark : List Token → Parsed LineMark
  | .lineMarkMarker :: .number .decimal n :: .base64 f :: .word w :: .newline :: rest =>
    some ({ line := n, file := f, word := some w }, skipNewlines rest)
  | .lineMarkMarker :: .number .decimal n :: .base64 f :: .newline :: rest =>
    some ({ line := n, file := f, word := none }, skipNewlines rest)
  | _ => none

/-- `goto_statement`. -/
def parseGoto : List Token → Parsed Stmt
  | .keyword .kGoto :: .word w :: .comma :: rest =>
    match parseGotoArgument rest with
    | none => none
    | some (a, rest') => (newlines rest').map fun r => (.goto w a, r)
  | _ => none

/-- A statement with no code block inside, of any kind. -/
def parseSimple (ts : List Token) : Parsed Stmt :=
  match ts with
  | .keyword .kBreak :: .newline :: rest => some (.breakStmt, skipNewlines rest)
  | .keyword .kContinue :: .newline :: rest => some (.continueStmt, skipNewlines rest)
  | .lineMarkMarker :: _ => (parseLineMark ts).map fun r => (.mark r.1, r.2)
  | .keyword .kGoto :: .word _ :: _ => parseGoto ts
  | _ => parseLine ts

/-- `restore_statement`. -/
def parseRestore : List Token → Parsed (Option Reg)
  | .keyword .kRestore :: .register r :: .newline :: rest => some (some r, skipNewlines rest)
  | .keyword .kRestore :: .newline :: rest => some (none, skipNewlines rest)
  | _ => none

/-- `(Then NEWLINE+)?`. -/
def skipThen : List Token → List Token
  | .keyword .kThen :: .newline :: rest => skipNewlines rest
  | ts => ts

mutual

/-- `code_block`: as many statements as there are. The first argument bounds the nesting and the number
of statements; the number of tokens is enough. -/
def parseBlock : Nat → List Token → List Stmt × List Token
  | 0, ts => ([], ts)
  | fuel + 1, ts =>
    match parseStatement fuel ts with
    | none => ([], ts)
    | some (s, rest) =>
      let r := parseBlock fuel rest
      (s :: r.1, r.2)

/-- One statement of a code block. -/
def parseStatement : Nat → List Token → Parsed Stmt
  | 0, _ => none
  | fuel + 1, ts =>
    match ts with
    | .keyword .kIf :: .newline :: rest =>
      match parseConditions fuel (skipNewlines rest) with
      | none => none
      | some (cs, rest') =>
        let body := parseBlock fuel (skipThen rest')
        match body.2 with
        | .keyword .kElse :: .newline :: r =>
          let other := parseBlock fuel (skipNewlines r)
          match other.2 with
          | .keyword .kFi :: .newline :: r' =>
            some (.conditional cs body.1 (some other.1), skipNewlines r')
          | _ => none
        | .keyword .kFi :: .newline :: r => some (.conditional cs body.1 none, skipNewlines r)
        | _ => none
    | .keyword .kWhile :: .newline :: rest =>
      let cond := parseBlock fuel (skipNewlines rest)
      match cond.2 with
      | .keyword .kStays :: .word w :: .newline :: r =>
        let body := parseBlock fuel (skipNewlines r)
        match body.2 with
        | .keyword .kWend :: .newline :: r' => some (.whileLoop cond.1 w body.1, skipNewlines r')
        | _ => none
      | _ => none
    | .keyword .kDo :: .newline :: rest =>
      let body := parseBlock fuel (skipNewlines rest)
      match body.2 with
      | .keyword .kUntil :: .word w :: .newline :: r => some (.untilLoop body.1 w, skipNewlines r)
      | _ => none
    | .keyword .kSave :: .register x :: .newline :: rest =>
      let body := parseBlock fuel (skipNewlines rest)
      (parseRestore body.2).map fun r => (.saveRestore x body.1 r.1, r.2)
    | _ => parseSimple ts

/-- `connective_condition* condition NEWLINE+`. -/
def parseConditions : Nat → List Token → Parsed (List (List Stmt × String × Option String))
  | 0, _ => none
  | fuel + 1, ts =>
    let block := parseBlock fuel ts
    match block.2 with
    | .keyword .kIs :: .word m :: .comma :: .word j :: .newline :: rest =>
      (parseConditions fuel (skipNewlines rest)).map fun r => ((block.1, m, some j) :: r.1, r.2)
    | .keyword .kIs :: .word m :: .newline :: rest => some ([(block.1, m, none)], skipNewlines rest)
    | _ => none

end

/-- The header of a section, with its `NEWLINE+`. -/
def parseHeader : List Token → Parsed SectionHeader
  | .keyword .kAsect :: .number _ n :: .newline :: rest => some (.asect n, skipNewlines rest)
  | .keyword .kRsect :: rest =>
    match parseName rest with
    | some (x, .newline :: r) => some (.rsect x, skipNewlines r)
    | _ => none
  | .keyword .kTplate :: rest =>
    match parseName rest with
    | some (x, .newline :: r) => some (.tplate x, skipNewlines r)
    | _ => none
  | _ => none

/-- `section*`. -/
def parseSections : Nat → List Token → List AsmSection × List Token
  | 0, ts => ([], ts)
  | fuel + 1, ts =>
    match parseHeader ts with
    | none => ([], ts)
    | some (h, rest) =>
      let body := parseBlock rest.length rest
      let more := parseSections fuel body.2
      ({ header := h, body := body.1 } :: more.1, more.2)

/-- `line_mark*`. -/
def parseMarks : Nat → List Token → List LineMark × List Token
  | 0, ts => ([], ts)
  | fuel + 1, ts =>
    match parseLineMark ts with
    | none => ([], ts)
    | some (m, rest) =>
      let more := parseMarks fuel rest
      (m :: more.1, more.2)

/-- `NEWLINE* line_mark* section* End`. DESIGN CHOICE (log 45): whatever stands after `end` is accepted and
ignored. -/
def parseSource (ts : List Token) : Option Program :=
  let marks := parseMarks ts.length (skipNewlines ts)
  let body := parseSections ts.length marks.2
  match body.2 with
  | .keyword .kEnd :: _ => some { marks := marks.1, sections := body.1 }
  | _ => none

/-- `program`, the parser's input after line marks were put in: at least one stands at its head (R106).
Source written by a person has none and is read by `parseSource` (90_conflicts.md C17). -/
def parseProgram (ts : List Token) : Option Program :=
  match parseSource ts with
  | some p => if p.marks.isEmpty then none else some p
  | none => none

end Sys2Proof.Asm
end

