-- ==== Sys2Proof/Machine/Assembler.lean ====
section
/-! DEFINITION. From assembly to bytes, as far as the spec settles it: address expressions
(spec/30_encoding.md R104), instruction lines (R101, R103), branch operands (R86), `goto` (R105), and a
program of absolute sections of plain instructions (R106). What the spec leaves to the base assembler is
an error by name (R107, R108; log 39). -/

namespace Sys2Proof.Asm

/-! ## Branch conditions and `goto` -/

/-- The condition with the opposite test, whose code is `cc xor 1` (spec/43_control.md R172). -/
def opposite : Cond → Cond
  | .eq => .ne
  | .ne => .eq
  | .hs => .lo
  | .lo => .hs
  | .mi => .pl
  | .pl => .mi
  | .vs => .vc
  | .vc => .vs
  | .hi => .ls
  | .ls => .hi
  | .ge => .lt
  | .lt => .ge
  | .gt => .le
  | .le => .gt
  | .always => .never
  | .never => .always

/-- The branch on a condition. -/
def branchInstr : Cond → Byte → Instr
  | .eq => .beq
  | .ne => .bne
  | .hs => .bhs
  | .lo => .blo
  | .mi => .bmi
  | .pl => .bpl
  | .vs => .bvs
  | .vc => .bvc
  | .hi => .bhi
  | .ls => .bls
  | .ge => .bge
  | .lt => .blt
  | .gt => .bgt
  | .le => .ble
  | .always => .br
  | .never => .bfalse

/-- The condition names of 43_control.md R171, used after `b` and in `goto`. The name `ngt` belongs to
condition D only (90_conflicts.md C8). -/
def condOfName (s : String) : Option Cond :=
  if s = "eq" ∨ s = "z" then some .eq
  else if s = "ne" ∨ s = "nz" then some .ne
  else if s = "hs" ∨ s = "cs" then some .hs
  else if s = "lo" ∨ s = "cc" then some .lo
  else if s = "mi" ∨ s = "npl" then some .mi
  else if s = "pl" ∨ s = "nmi" then some .pl
  else if s = "vs" ∨ s = "nvc" then some .vs
  else if s = "vc" ∨ s = "nvs" then some .vc
  else if s = "hi" ∨ s = "nlc" then some .hi
  else if s = "ls" ∨ s = "nhi" then some .ls
  else if s = "ge" ∨ s = "nlt" then some .ge
  else if s = "lt" then some .lt
  else if s = "gt" ∨ s = "nle" then some .gt
  else if s = "le" ∨ s = "ngt" then some .le
  else if s = "r" ∨ s = "true" then some .always
  else if s = "false" then some .never
  else none

/-- The offset byte of a branch at `a` to `target`: `target - (A + 2)` in 8-bit two's complement, if it
lies in -128..127 (R86; log 22, log 35). -/
def branchOffset (a target : Addr) : Option Byte :=
  if branchInReach a target then some (BitVec.ofInt 8 (branchDistance a target)) else none

/-- The long form of `goto`: the branch on the opposite condition over a `jmp` (R105; log 35). -/
def gotoLong (c : Cond) (target : Addr) : List Instr := [branchInstr (opposite c) 0x03, .jmp target]

/-- What `goto c, target` at address `a` is replaced with: the branch if the jump is short, else the long
form (R105). -/
def gotoInstrs (c : Cond) (a target : Addr) : List Instr :=
  match branchOffset a target with
  | some off => [branchInstr c off]
  | none => gotoLong c target

/-! ## Values (R103, R104) -/

/-- Why a source is not assembled. -/
inductive AsmError where
  /-- A feature of the base assembler that the spec does not describe (R107, R108). -/
  | notDescribed
  /-- The source does not have the form of the grammar (R111). -/
  | badSyntax
  /-- A word that is no mnemonic of R101; the macros and `dc` are among them (R109, R195). -/
  | unknownMnemonic (s : String)
  /-- Operands that are not of the mnemonic's form (R101). -/
  | badOperands (s : String)
  /-- A label that no line declares. -/
  | undefinedLabel (s : String)
  /-- "If the jump is too far, assembler will give an error." (R86) -/
  | jumpTooFar
  deriving DecidableEq, Repr

/-- The labels of a program with their addresses: one table for all its sections, in the order of their
declarations (log 43). -/
abbrev Labels := List (String × Nat)

/-- The value of a term; of two declarations of one label the first counts (log 43). A template field has no
value: the spec does not say what a template is (R106). -/
def termValue (ls : Labels) : Term → Except AsmError Int
  | .number n => .ok n
  | .templateField _ _ => .error .notDescribed
  | .label s =>
    match ls.find? fun x => x.1 == s with
    | some x => .ok x.2
    | none => .error (.undefinedLabel s)

/-- A term with its sign. -/
def signedTermValue (ls : Labels) (t : SignedTerm) : Except AsmError Int :=
  match termValue ls t.term with
  | .error e => .error e
  | .ok v => .ok (if t.negative then -v else v)

/-- The value of an address expression: the signed sum of its terms (R104). -/
def exprValue (ls : Labels) (e : AddrExpr) : Except AsmError Int :=
  (e.first :: e.more).foldl
    (fun acc t =>
      match acc, signedTermValue ls t with
      | .error x, _ => .error x
      | .ok _, .error x => .error x
      | .ok v, .ok w => .ok (v + w))
    (.ok 0)

/-- The low 16 bits of a value (R103; log 38). -/
def wordOfInt (v : Int) : Addr := BitVec.ofInt 16 v

/-- The low 8 bits of a value (R103; log 38). -/
def byteOfInt (v : Int) : Byte := BitVec.ofInt 8 v

/-- The value of an operand that is no register: an address expression, or `low(e)` and `high(e)`, bits
7:0 and 15:8 of the 16-bit value of `e` (R104). -/
def operandValue (ls : Labels) : Argument → Except AsmError Int
  | .addr e => exprValue ls e
  | .byte .low e =>
    match exprValue ls e with
    | .ok v => .ok ((lo (wordOfInt v)).toNat : Int)
    | .error x => .error x
  | .byte .high e =>
    match exprValue ls e with
    | .ok v => .ok ((hi (wordOfInt v)).toNat : Int)
    | .error x => .error x
  | .register _ | .str _ | .character _ => .error .notDescribed

/-! ## Instruction lines (R101) -/

/-- The operand forms of R101, each with what it makes of its operands. -/
inductive LineForm where
  | regReg (f : Reg → Reg → Instr)
  | reg (f : Reg → Instr)
  | regByte (f : Reg → Byte → Instr)
  | byte (f : Byte → Instr)
  | addr (f : Addr → Instr)
  | branch (c : Cond)
  | none (i : Instr)

/-- The form of a mnemonic that is no branch (R101). -/
def plainForm (s : String) : Option LineForm :=
  if s = "ld" then some (.regReg .ld)
  else if s = "ldc" then some (.regReg .ldc)
  else if s = "st" then some (.regReg .st)
  else if s = "move" then some (.regReg .move)
  else if s = "add" then some (.regReg .add)
  else if s = "addc" then some (.regReg .addc)
  else if s = "sub" then some (.regReg .sub)
  else if s = "cmp" then some (.regReg .cmp)
  else if s = "and" then some (.regReg .and)
  else if s = "or" then some (.regReg .or)
  else if s = "xor" then some (.regReg .xor)
  else if s = "push" then some (.reg .push)
  else if s = "pop" then some (.reg .pop)
  else if s = "neg" then some (.reg .neg)
  else if s = "inc" then some (.reg .inc)
  else if s = "dec" then some (.reg .dec)
  else if s = "not" then some (.reg .not)
  else if s = "shra" then some (.reg .shra)
  else if s = "shla" then some (.reg .shla)
  else if s = "shr" then some (.reg .shr)
  else if s = "rol" then some (.reg .rol)
  else if s = "ldi" then some (.regByte .ldi)
  else if s = "ldsa" then some (.regByte .ldsa)
  else if s = "addsp" then some (.byte .addsp)
  else if s = "setsp" then some (.byte .setsp)
  else if s = "jmp" then some (.addr .jmp)
  else if s = "jsr" then some (.addr .jsr)
  else if s = "pushall" then some (.none .pushall)
  else if s = "popall" then some (.none .popall)
  else if s = "rts" then some (.none .rts)
  else if s = "ioi" then some (.none .ioi)
  else if s = "rti" then some (.none .rti)
  else if s = "crc" then some (.none .crc)
  else if s = "halt" then some (.none .halt)
  else if s = "wait" then some (.none .wait)
  else none

/-- The form of a mnemonic: a plain one, or `b` and a condition name (R101). -/
def lineForm (s : String) : Option LineForm :=
  match plainForm s with
  | some f => some f
  | none =>
    match s.toList with
    | 'b' :: rest => (condOfName (String.ofList rest)).map .branch
    | _ => none

/-- The bytes that a form takes (R81, R89). -/
def formLength : LineForm → Nat
  | .regReg _ | .reg _ | .none _ => 1
  | .regByte _ | .byte _ | .branch _ => 2
  | .addr _ => 3

/-- The instruction of one line at address `a` (R101, R86, R103). DESIGN CHOICE (log 41): of a branch
operand outside 0..0xFFFF the low 16 bits are the target, and of an address past 0xFFFF the low 16 bits
count (log 42). -/
def lineInstr (ls : Labels) (a : Nat) (s : String) (args : List Argument) : Except AsmError Instr :=
  match lineForm s with
  | none => .error (.unknownMnemonic s)
  | some form =>
    match form, args with
    | .regReg f, [.register n, .register m] => .ok (f n m)
    | .reg f, [.register n] => .ok (f n)
    | .none i, [] => .ok i
    | .regByte f, [.register n, x] =>
      match operandValue ls x with
      | .ok v => .ok (f n (byteOfInt v))
      | .error e => .error e
    | .byte f, [x] =>
      match operandValue ls x with
      | .ok v => .ok (f (byteOfInt v))
      | .error e => .error e
    | .addr f, [x] =>
      match operandValue ls x with
      | .ok v => .ok (f (wordOfInt v))
      | .error e => .error e
    | .branch c, [x] =>
      match operandValue ls x with
      | .error e => .error e
      | .ok v =>
        match branchOffset (BitVec.ofNat 16 a) (wordOfInt v) with
        | some off => .ok (branchInstr c off)
        | none => .error .jumpTooFar
    | _, _ => .error (.badOperands s)

/-! ## Programs of absolute sections -/

/-- One item of a section: a label, an instruction line, or a `goto` in its short or long form. -/
inductive Item where
  | label (s : String)
  | line (s : String) (args : List Argument)
  | goto (c : Cond) (target : Argument) (long : Bool)
  deriving DecidableEq, Repr

/-- The items of a statement. The structured statements and a label with `>` or `ext` are not described
(R106, R107). -/
def itemsOfStmt : Stmt → Except AsmError (List Item)
  | .mark _ => .ok []
  | .standaloneLabel l ext => if l.angle || ext then .error .notDescribed else .ok [.label l.name]
  | .instruction none s args => .ok [.line s args]
  | .instruction (some l) s args =>
    if l.angle then .error .notDescribed else .ok [.label l.name, .line s args]
  | .goto w x =>
    match condOfName w with
    | some c => .ok [.goto c x false]
    | none => .error (.unknownMnemonic w)
  | .breakStmt | .continueStmt | .conditional _ _ _ | .whileLoop _ _ _ | .untilLoop _ _
  | .saveRestore _ _ _ => .error .notDescribed

/-- The items of a code block. -/
def itemsOfBlock : List Stmt → Except AsmError (List Item)
  | [] => .ok []
  | s :: rest =>
    match itemsOfStmt s, itemsOfBlock rest with
    | .ok x, .ok y => .ok (x ++ y)
    | .error e, _ => .error e
    | _, .error e => .error e

/-- The absolute sections of a program with their items. -/
def itemsOfSections : List AsmSection → Except AsmError (List (Nat × List Item))
  | [] => .ok []
  | s :: rest =>
    match s.header, itemsOfBlock s.body, itemsOfSections rest with
    | .asect a, .ok x, .ok y => .ok ((a, x) :: y)
    | .asect _, .error e, _ => .error e
    | .asect _, _, .error e => .error e
    | _, _, _ => .error .notDescribed

/-- The bytes an item takes: none for a label, 2 or 5 for a `goto` (R105). A word that is no mnemonic is
taken as 0 here and is an error when its line is assembled. -/
def itemLength : Item → Nat
  | .label _ => 0
  | .line s _ => (lineForm s).elim 0 formLength
  | .goto _ _ long => if long then 5 else 2

/-- The labels that a section declares, with their addresses, its first item at `a`. -/
def labelsOfItems : Nat → List Item → Labels
  | _, [] => []
  | a, .label s :: rest => (s, a) :: labelsOfItems a rest
  | a, x :: rest => labelsOfItems (a + itemLength x) rest

/-- The labels of a program, of all its sections (log 43). -/
def labelsOfSections (secs : List (Nat × List Item)) : Labels :=
  secs.flatMap fun s => labelsOfItems s.1 s.2

/-- The items with every `goto` in the form that R105 gives it where it stands: long exactly when its target,
the low 16 bits of the operand (log 41), is out of reach. With `keepLong`, a long form stays long. -/
def fitItems (keepLong : Bool) (ls : Labels) : Nat → List Item → List Item
  | _, [] => []
  | a, .goto c x long :: rest =>
    let far :=
      match operandValue ls x with
      | .ok v => (branchOffset (BitVec.ofNat 16 a) (wordOfInt v)).isNone
      | .error _ => false
    .goto c x (keepLong && long || far) ::
      fitItems keepLong ls (a + itemLength (.goto c x long)) rest
  | a, x :: rest => x :: fitItems keepLong ls (a + itemLength x) rest

/-- The sections with every `goto` fitted to the addresses that the present forms give. -/
def fitSections (keepLong : Bool) (secs : List (Nat × List Item)) : List (Nat × List Item) :=
  secs.map fun s => (s.1, fitItems keepLong (labelsOfSections secs) s.1 s.2)

/-- Whether every `goto` has the form that R105 gives it at the addresses that these forms give. -/
def gotosSettled (secs : List (Nat × List Item)) : Bool := fitSections false secs == secs

/-- Fitting, as often as the first argument says. -/
def fitRounds (keepLong : Bool) : Nat → List (Nat × List Item) → List (Nat × List Item)
  | 0, secs => secs
  | n + 1, secs => fitRounds keepLong n (fitSections keepLong secs)

/-- The first answer of `k` over every choice of forms for the items' `goto` statements, short forms
first. -/
def searchItems {α : Type} (k : List Item → Option α) : List Item → Option α
  | [] => k []
  | .goto c x _ :: rest =>
    match searchItems (fun r => k (.goto c x false :: r)) rest with
    | some y => some y
    | none => searchItems (fun r => k (.goto c x true :: r)) rest
  | x :: rest => searchItems (fun r => k (x :: r)) rest

/-- The first answer of `k` over every choice of forms in all sections. -/
def searchSections {α : Type} (k : List (Nat × List Item) → Option α) :
    List (Nat × List Item) → Option α
  | [] => k []
  | s :: rest => searchItems (fun x => searchSections (fun r => k ((s.1, x) :: r)) rest) s.2

/-- The number of items of a program: no fewer than its `goto` statements. -/
def itemCount (secs : List (Nat × List Item)) : Nat := (secs.map fun s => s.2.length).sum

/-- The sections after every `goto` found its form (R105): a choice of forms that is settled, if there is
one. DESIGN CHOICE (log 35): which one, of several, and what stands where none is settled: there a form
that once had to be long stays long. -/
def settleGotos (secs : List (Nat × List Item)) : List (Nat × List Item) :=
  let rounds := itemCount secs + 1
  if gotosSettled (fitRounds false rounds secs) then fitRounds false rounds secs
  else
    match searchSections (fun x => if gotosSettled x then some x else none) secs with
    | some x => x
    | none => fitRounds true rounds secs

/-- The bytes of an item at address `a`; the target of a `goto` is the low 16 bits of its operand
(log 41). -/
def itemBytes (ls : Labels) (a : Nat) : Item → Except AsmError (List Byte)
  | .label _ => .ok []
  | .line s args =>
    match lineInstr ls a s args with
    | .ok i => .ok (encode i)
    | .error e => .error e
  | .goto c x long =>
    match operandValue ls x with
    | .error e => .error e
    | .ok v =>
      if long then .ok ((gotoLong c (wordOfInt v)).flatMap encode)
      else
        match branchOffset (BitVec.ofNat 16 a) (wordOfInt v) with
        | some off => .ok (encode (branchInstr c off))
        | none => .error .jumpTooFar

/-- The bytes of a section's items, the first at address `a`. -/
def sectionBytes (ls : Labels) : Nat → List Item → Except AsmError (List Byte)
  | _, [] => .ok []
  | a, x :: rest =>
    match itemBytes ls a x, sectionBytes ls (a + itemLength x) rest with
    | .ok bs, .ok more => .ok (bs ++ more)
    | .error e, _ => .error e
    | _, .error e => .error e

/-- Bytes as cells at consecutive addresses, which do not wrap at 0xFFFF (log 42). -/
def cellsAt : Nat → List Byte → List Host.Cell
  | _, [] => []
  | a, b :: rest => (a, b) :: cellsAt (a + 1) rest

/-- The cells of every section, in the order of the source. DESIGN CHOICE (log 42): a section that starts or
runs past 0xFFFF, or overlaps another, is no error; its cells stand in the list as they are. -/
def sectionsCells (ls : Labels) : List (Nat × List Item) → Except AsmError (List Host.Cell)
  | [] => .ok []
  | s :: rest =>
    match sectionBytes ls s.1 s.2, sectionsCells ls rest with
    | .ok bs, .ok more => .ok (cellsAt s.1 bs ++ more)
    | .error e, _ => .error e
    | _, .error e => .error e

/-- A parsed program as the cells of code memory it defines (`code_image`, 00_scope.md R7). -/
def assembleProgram (p : Program) : Except AsmError (List Host.Cell) :=
  match itemsOfSections p.sections with
  | .error e => .error e
  | .ok secs =>
    let settled := settleGotos secs
    sectionsCells (labelsOfSections settled) settled

/-- A source text as the cells of code memory it defines. -/
def assemble (source : String) : Except AsmError (List Host.Cell) :=
  match parseSource (lex source) with
  | none => .error .badSyntax
  | some p => assembleProgram p

end Sys2Proof.Asm
end

