-- ==== Sys2Proof/Machine/Bus.lean ====
section
/-! DEFINITION. The memory accesses of an instruction and of a boundary, in the order the spec lists them
(spec/20_memory.md R55), and the output data/ins' (spec/10_state.md R39). The step does not use this
file: it says on the side what the step's reads and writes are. -/

namespace Sys2Proof.Machine

/-- The two memories (10_state.md R36, R37). -/
inductive Space where
  | code
  | data
  deriving DecidableEq, Repr

/-- One access of one byte. A data address has a zero upper byte (10_state.md R37; log 24). -/
structure Access where
  space : Space
  isWrite : Bool
  addr : Addr
  deriving DecidableEq, Repr

/-- The level of the output data/ins': low (`false`) on an access to data memory, high (`true`) on an
access to code memory (R39). -/
def dataIns (x : Access) : Bool := x.space == .code

/-- A byte read from code memory. -/
def codeRead (a : Addr) : Access := { space := .code, isWrite := false, addr := a }

/-- A byte read from data memory. -/
def dataRead (a : Byte) : Access := { space := .data, isWrite := false, addr := zext16 a }

/-- A byte written to data memory. -/
def dataWrite (a : Byte) : Access := { space := .data, isWrite := true, addr := zext16 a }

/-- The accesses of an interrupt entry with vector `v` (R55, 60_exceptions.md R215). -/
def entryAccesses (v : BitVec 3) (s : State) : List Access :=
  [dataWrite (stackAddressBelow s 2), dataWrite (stackAddressBelow s 1),
    dataWrite (stackAddressBelow s 3), codeRead (vectorAddress v), codeRead (vectorAddress v + 1),
    codeRead (vectorAddress v + 2)]

/-- The fetches of an instruction: its bytes at consecutive ascending code addresses (R52, R55). -/
def fetchAccesses (i : Instr) (s : State) : List Access :=
  (List.range i.length).map fun k => codeRead (s.pc + BitVec.ofNat 16 k)

/-- The further accesses of an instruction, by the last column of R55. -/
def furtherAccesses (i : Instr) (s : State) : List Access :=
  match i with
  | .ldi _ _ | .ldsa _ _ | .addsp _ | .setsp _ => []
  | .ld rn _ => [dataRead (dataAddress s rn)]
  | .ldc rn _ => [codeRead (codeAddress s rn)]
  | .st rn _ => [dataWrite (dataAddress s rn)]
  | .push _ => [dataWrite (stackAddressBelow s 1)]
  | .pop _ => [dataRead s.sp]
  | .pushall => [dataWrite (stackAddressBelow s 1), dataWrite (stackAddressBelow s 2),
      dataWrite (stackAddressBelow s 3), dataWrite (stackAddressBelow s 4)]
  | .popall => [dataRead (stackAddress s 0), dataRead (stackAddress s 1),
      dataRead (stackAddress s 2), dataRead (stackAddress s 3)]
  | .move _ _ | .add _ _ | .addc _ _ | .sub _ _ | .and _ _ | .or _ _ | .xor _ _ | .cmp _ _ => []
  | .not _ | .neg _ | .dec _ | .inc _ | .shr _ | .shla _ | .shra _ | .rol _ => []
  | .beq _ | .bne _ | .bhs _ | .blo _ | .bmi _ | .bpl _ | .bvs _ | .bvc _ => []
  | .bhi _ | .bls _ | .bge _ | .blt _ | .bgt _ | .ble _ | .br _ | .bfalse _ => []
  | .jmp _ | .halt | .wait => []
  | .jsr _ => [dataWrite (stackAddressBelow s 2), dataWrite (stackAddressBelow s 1)]
  | .rts => [dataRead (stackAddress s 0), dataRead (stackAddress s 1)]
  | .ioi => entryAccesses s.input.irqVector s
  | .rti => [dataRead (stackAddress s 0), dataRead (stackAddress s 1), dataRead (stackAddress s 2)]
  | .crc => [dataRead (stackAddress s 0), dataRead (stackAddress s 1),
      dataWrite (stackAddress s 0), dataWrite (stackAddress s 1)]

/-- Every access of an instruction. -/
def instrAccesses (i : Instr) (s : State) : List Access := fetchAccesses i s ++ furtherAccesses i s

/-- Every access at a boundary. A reset, a halted and a waiting boundary make none; an unassigned opcode
byte is fetched and nothing more (30_encoding.md R96). -/
def boundaryAccesses (s : State) : List Access :=
  match boundaryEvent s with
  | .reset _ | .halted | .waiting => []
  | .interrupt v => entryAccesses v s
  | .instruction =>
    match fetchInstr s with
    | some i => instrAccesses i s
    | none => [codeRead s.pc]

end Sys2Proof.Machine
end

