-- ==== Sys2Proof/Safety.lean ====
section
/-! DEFINITION. The terms the statements use: what a step or an instruction keeps, the invariant of the
memories, and the ends of a run (spec/70_reset_and_hazards.md R245, R246). -/

namespace Sys2Proof.Machine

/-- Every general register not named keeps its content. -/
def RegsKept (written : List Reg) (s t : State) : Prop := ∀ r, r ∉ written → t.reg r = s.reg r

/-- Every byte of both memories is kept, but for the data addresses named: data is read by
`State.readData`, code by `State.readCode`. Under `arch = VonNeumann` the code cells of the named data
addresses are the exceptions in code (10_state.md R38). -/
def MemoryKept (stored : List Byte) (s t : State) : Prop :=
  (∀ a, a ∉ stored → t.readData a = s.readData a) ∧
  (∀ c, (s.arch = .vonNeumann → c ∉ stored.map zext16) → t.readCode c = s.readCode c)

/-- The system around the processor is kept: its parameters, what it presents, and the boundary. -/
def OutsideKept (s t : State) : Prop :=
  t.arch = s.arch ∧ t.ldcHigh = s.ldcHigh ∧ t.inputs = s.inputs ∧ t.boundary = s.boundary

/-- The frame of an instruction: the registers, the memories and the outside. SP, PS, PC and the clock
are said by each statement itself. -/
def Frame (written : List Reg) (stored : List Byte) (s t : State) : Prop :=
  RegsKept written s t ∧ MemoryKept stored s t ∧ OutsideKept s t

/-- The four flags of PS as given, and I and the reserved bits (bits 7 to 4) as before
(10_state.md R35). -/
def FlagsAre (c v z n : Bool) (s t : State) : Prop :=
  flagC t.ps = c ∧ flagV t.ps = v ∧ flagZ t.ps = z ∧ flagN t.ps = n ∧
  ∀ k, 4 ≤ k → t.ps.getLsbD k = s.ps.getLsbD k

/-- The data addresses that a list of accesses writes. -/
def writtenAddresses (xs : List Access) : List Byte :=
  (xs.filter fun x => x.isWrite).map fun x => x.addr.setWidth 8

/-- Both memories stand in their canonical form. -/
def MemoriesCanonical (s : State) : Prop :=
  Memory.wf Config.codeSize s.code ∧ Memory.wf Config.dataSize s.data

/-- No reset stands in the list of what the outside will present; beyond the list there is none (log 4). -/
def NoResetListed (s : State) : Prop := ∀ x ∈ s.inputs, x.reset = none

/-- The end of a run: `halt` has executed (70_reset_and_hazards.md R246). -/
def Ended (s : State) : Prop := s.clock = .halted

/-- A `wait` that no interrupt can end: the clock waits and I = 0 (44_clock_control.md R191, R192). It is
a hang, not an end. -/
def Hung (s : State) : Prop := s.clock = .waiting ∧ flagI s.ps = false

/-- Two states that agree on every register, flag and memory cell and on the clock: all that a program can
observe; they may differ in the boundary's index and in what the outside will present. -/
def SameMachine (s t : State) : Prop :=
  t.regs = s.regs ∧ t.sp = s.sp ∧ t.ps = s.ps ∧ t.pc = s.pc ∧ t.clock = s.clock ∧
  t.code = s.code ∧ t.data = s.data ∧ t.arch = s.arch ∧ t.ldcHigh = s.ldcHigh

/-- The four opcode bytes that no instruction has (30_encoding.md R96). -/
def UnassignedOpcode (b : Byte) : Prop := b = 0xDB ∨ b = 0xDC ∨ b = 0xDE ∨ b = 0xDF

/-- The boundary runs the instruction at PC: no reset, the clock running, no interrupt accepted
(60_exceptions.md R219). -/
def RunsInstruction (s : State) : Prop :=
  s.input.reset = none ∧ s.clock = .running ∧ (flagI s.ps = false ∨ s.input.irqReq = false)

/-- PC has moved past `n` bytes, modulo 65536 (10_state.md R26, R27), and the clock is as before. -/
def Advanced (n : Nat) (s t : State) : Prop :=
  t.pc.toNat = (s.pc.toNat + n) % 65536 ∧ t.clock = s.clock

/-- The number of a register (10_state.md R21). -/
def regNumber : Reg → Nat
  | .r0 => 0
  | .r1 => 1
  | .r2 => 2
  | .r3 => 3

/-- The system around the processor has gone on to the next boundary: the parameters are kept, this
boundary's input is used up. -/
def OutsideAdvanced (s t : State) : Prop :=
  t.arch = s.arch ∧ t.ldcHigh = s.ldcHigh ∧ t.inputs = s.inputs.tail ∧ t.boundary = s.boundary + 1

/-- The boundary takes an interrupt (60_exceptions.md R213, R214, R219). -/
def TakesInterrupt (s : State) : Prop :=
  s.input.reset = none ∧ s.clock ≠ .halted ∧ flagI s.ps = true ∧ s.input.irqReq = true

/-- The boundary runs the instruction `i`: the one the decoder reads from the bytes at PC. -/
def Executes (s : State) (i : Instr) : Prop :=
  RunsInstruction s ∧
  ∃ rest, decode [s.readCode s.pc, s.readCode (s.pc + 1), s.readCode (s.pc + 2)] = .instr i rest

/-- Byte `k` of vector `v` in code memory, which stands at 0xFFE0 + 4v + k (60_exceptions.md R211). -/
def vectorByte (s : State) (v : BitVec 3) (k : Nat) : Byte :=
  s.readCode (BitVec.ofNat 16 (0xFFE0 + 4 * v.toNat + k))

/-- What an interrupt entry with vector `v` and return address `ret` makes of the registers and the
memories (60_exceptions.md R215, R216): the old PS at SP - 3, the return address at SP - 2 (low byte) and
SP - 1 (high byte), PC and PS from the vector; the clock and the inputs are said by each statement. -/
def EntryEffect (v : BitVec 3) (ret : Addr) (s t : State) : Prop :=
  t.sp = s.sp - 3 ∧
  t.readData (s.sp - 3) = s.ps ∧ t.readData (s.sp - 2) = lo ret ∧ t.readData (s.sp - 1) = hi ret ∧
  t.pc = concat16 (vectorByte s v 1) (vectorByte s v 0) ∧ t.ps = vectorByte s v 2 ∧
  RegsKept [] s t ∧ MemoryKept [s.sp - 1, s.sp - 2, s.sp - 3] s t

/-- What a branch does if its test has the outcome `taken` (43_control.md R170): PC is A + 2 plus the
signed offset, or A + 2, modulo 65536; nothing else changes. -/
def BranchOutcome (taken : Bool) (i : Instr) (off : Byte) (s : State) : Prop :=
  ∃ t, exec i s = .next t ∧
    (t.pc.toNat : Int) =
      (if taken then (s.pc.toNat : Int) + 2 + signed8 off else (s.pc.toNat : Int) + 2) % 65536 ∧
    t.sp = s.sp ∧ t.ps = s.ps ∧ t.clock = s.clock ∧ Frame [] [] s t

/-- The general registers an instruction writes: the last column of 10_state.md R22. -/
def writtenRegs : Instr → List Reg
  | .ldi rn _ | .pop rn | .ldsa rn _ => [rn]
  | .ld _ rm | .ldc _ rm => [rm]
  | .st _ _ | .push _ | .pushall => []
  | .popall => [.r0, .r1, .r2, .r3]
  | .move _ rm | .add _ rm | .addc _ rm | .sub _ rm | .and _ rm | .or _ rm | .xor _ rm => [rm]
  | .cmp _ _ => []
  | .neg rn | .inc rn | .dec rn | .not rn | .shra rn | .shla rn | .shr rn | .rol rn => [rn]
  | .addsp _ | .setsp _ => []
  | .beq _ | .bne _ | .bhs _ | .blo _ | .bmi _ | .bpl _ | .bvs _ | .bvc _ => []
  | .bhi _ | .bls _ | .bge _ | .blt _ | .bgt _ | .ble _ | .br _ | .bfalse _ => []
  | .jmp _ | .jsr _ | .rts | .ioi | .rti | .crc | .halt | .wait => []

/-- Whether an instruction may change SP: the stack instructions but for `ldsa`, and `jsr`, `rts`, `ioi`,
`rti` (10_state.md R23; `crc` leaves SP, 43_control.md R179). -/
def writesSp : Instr → Bool
  | .push _ | .pop _ | .addsp _ | .setsp _ | .pushall | .popall => true
  | .jsr _ | .rts | .ioi | .rti => true
  | .ldi _ _ | .ld _ _ | .ldc _ _ | .st _ _ | .ldsa _ _ => false
  | .move _ _ | .add _ _ | .addc _ _ | .sub _ _ | .and _ _ | .or _ _ | .xor _ _ | .cmp _ _ => false
  | .neg _ | .inc _ | .dec _ | .not _ | .shra _ | .shla _ | .shr _ | .rol _ => false
  | .beq _ | .bne _ | .bhs _ | .blo _ | .bmi _ | .bpl _ | .bvs _ | .bvc _ => false
  | .bhi _ | .bls _ | .bge _ | .blt _ | .bgt _ | .ble _ | .br _ | .bfalse _ => false
  | .jmp _ | .crc | .halt | .wait => false

/-- Whether an instruction writes flags only (10_state.md R35, 70_reset_and_hazards.md R248): all of
42_arithmetic.md. -/
def writesFlags : Instr → Bool
  | .move _ _ | .add _ _ | .addc _ _ | .sub _ _ | .and _ _ | .or _ _ | .xor _ _ | .cmp _ _ => true
  | .neg _ | .inc _ | .dec _ | .not _ | .shra _ | .shla _ | .shr _ | .rol _ => true
  | .ldi _ _ | .ld _ _ | .ldc _ _ | .st _ _ => false
  | .push _ | .pop _ | .ldsa _ _ | .addsp _ | .setsp _ | .pushall | .popall => false
  | .beq _ | .bne _ | .bhs _ | .blo _ | .bmi _ | .bpl _ | .bvs _ | .bvc _ => false
  | .bhi _ | .bls _ | .bge _ | .blt _ | .bgt _ | .ble _ | .br _ | .bfalse _ => false
  | .jmp _ | .jsr _ | .rts | .ioi | .rti | .crc | .halt | .wait => false

/-- Whether an instruction goes on anywhere but at the byte after it: the control instructions
(10_state.md R28), `halt` and `wait` (R26). -/
def redirects : Instr → Bool
  | .beq _ | .bne _ | .bhs _ | .blo _ | .bmi _ | .bpl _ | .bvs _ | .bvc _ => true
  | .bhi _ | .bls _ | .bge _ | .blt _ | .bgt _ | .ble _ | .br _ | .bfalse _ => true
  | .jmp _ | .jsr _ | .rts | .ioi | .rti | .crc | .halt | .wait => true
  | .ldi _ _ | .ld _ _ | .ldc _ _ | .st _ _ => false
  | .push _ | .pop _ | .ldsa _ _ | .addsp _ | .setsp _ | .pushall | .popall => false
  | .move _ _ | .add _ _ | .addc _ _ | .sub _ _ | .and _ _ | .or _ _ | .xor _ _ | .cmp _ _ => false
  | .neg _ | .inc _ | .dec _ | .not _ | .shra _ | .shla _ | .shr _ | .rol _ => false

/-- Instructions run one after another, from the outcome of none: what `exec` does in sequence, without
the boundaries between (for the expansions of macros and of `goto`). -/
def execAll : List Instr → State → Host.Outcome State Fault Refusal
  | [], s => .next s
  | i :: rest, s =>
    match exec i s with
    | .next t => execAll rest t
    | .fault r => .fault r
    | .refused r => .refused r

end Sys2Proof.Machine
end

