-- ==== Sys2Proof/Machine/Macros.lean ====
section
/-! DEFINITION. The macros of the standard library (spec/45_macros.md R195 to R202). A macro is no machine
instruction: the manual states its effect and not its expansion. The effect is a relation between the
state before and the state after, and says nothing of what the spec leaves open (log 34). The sequences
are the spec's derivations of instructions with that effect, not what the real library emits. -/

namespace Sys2Proof.Machine

/-- The seven macros, operands in the order they are written (R196 to R202). -/
inductive MacroCall where
  | tst (rn : Reg)
  | clr (rn : Reg)
  | shl (rn : Reg)
  | ldv (const : Byte) (rn : Reg)
  | stv (rn : Reg) (const : Byte)
  | ei
  | di
  deriving DecidableEq, Repr

/-- The `depth` data addresses below SP: SP - 1, SP - 2, … modulo 256 (10_state.md R24). -/
def stackBelow (depth : Nat) (s : State) : List Byte :=
  (List.range depth).map fun k => stackAddressBelow s (k + 1)

/-- What no macro's stated effect names: the clock and the parameters of the system. -/
def OutsideMacroKept (s t : State) : Prop :=
  t.clock = s.clock ∧ t.arch = s.arch ∧ t.ldcHigh = s.ldcHigh

/-- The effect the manual states; what it does not name is unchanged (log 34), but for what
93_implementation_defined.md part 1 leaves to the unknown expansion. PC is left open, since the size of an
expansion is not stated but for `clr`. How many stack bytes below SP an expansion uses is not stated
either: it is the argument `depth`. -/
def macroEffect (depth : Nat) (m : MacroCall) (s t : State) : Prop :=
  OutsideMacroKept s t ∧ t.sp = s.sp ∧
  match m with
  /- R196: Z and N from rn; no register and no memory changes. C and V stay open (conflict C10). -/
  | .tst rn =>
    (∃ c v, FlagsAre c v (s.reg rn == 0) ((s.reg rn).getLsbD 7) s t) ∧
    RegsKept [] s t ∧ MemoryKept [] s t
  /- R197: rn is zero, Z = 1, N = 0, and V = 0 under every reading the rule names (DEDUCED, log 34). C stays
  open. It takes one byte. -/
  | .clr rn =>
    t.reg rn = 0 ∧ (∃ c, FlagsAre c false true false s t) ∧ t.pc = s.pc + 1 ∧
    RegsKept [rn] s t ∧ MemoryKept [] s t
  /- R198: the shift left through C. -/
  | .shl rn =>
    t.reg rn = BitVec.ofNat 8 (((s.reg rn).toNat * 2) % 256 + bitValue (flagC s.ps)) ∧
    FlagsAre ((s.reg rn).getLsbD 7) ((s.reg rn).getLsbD 7 ^^ (s.reg rn).getLsbD 6)
      (t.reg rn == 0) ((t.reg rn).getLsbD 7) s t ∧
    RegsKept [rn] s t ∧ MemoryKept [] s t
  /- R199: the byte of data memory at the constant address; the flags unchanged. -/
  | .ldv const rn =>
    t.reg rn = s.readData const ∧ t.ps = s.ps ∧ RegsKept [rn] s t ∧ MemoryKept [] s t
  /- R200: the byte stored at the constant address; the flags and rn unchanged. The other registers and
  the stack bytes below SP stay open. -/
  | .stv rn const =>
    t.readData const = s.reg rn ∧ t.ps = s.ps ∧ t.reg rn = s.reg rn ∧
    MemoryKept (const :: stackBelow depth s) s t
  /- R201: PS is 0b10000000. The scratch register and the stack bytes below SP stay open. -/
  | .ei => t.ps = 0x80 ∧ MemoryKept (stackBelow depth s) s t
  /- R202: PS is 0. The same stays open. -/
  | .di => t.ps = 0x00 ∧ MemoryKept (stackBelow depth s) s t

/-! ## Instruction sequences that the spec derives (R196 to R202) -/

/-- The three one-byte instructions nearest to `tst` (R196). -/
def tstCandidates (rn : Reg) : List Instr := [.move rn rn, .and rn rn, .or rn rn]

/-- The two one-byte instructions that clear a register whatever it held (R197). -/
def clrCandidates (rn : Reg) : List Instr := [.xor rn rn, .sub rn rn]

/-- The one-byte instruction with the effect of `shl` (R198). -/
def shlSequence (rn : Reg) : List Instr := [.addc rn rn]

/-- `ldi rn, const; ld rn, rn` (R199). -/
def ldvSequence (const : Byte) (rn : Reg) : List Instr := [.ldi rn const, .ld rn rn]

/-- `push rk; ldi rk, const; st rk, rn; pop rk`, with rk not rn (R200). -/
def stvSequence (rk rn : Reg) (const : Byte) : List Instr :=
  [.push rk, .ldi rk const, .st rk rn, .pop rk]

/-- The frame built and returned through, for `ei` (PS byte 0x80) and `di` (0x00), with `L` the address
after the sequence (R201, R202). -/
def psSequence (rk : Reg) (psByte : Byte) (L : Addr) : List Instr :=
  [.ldi rk (hi L), .push rk, .ldi rk (lo L), .push rk, .ldi rk psByte, .push rk, .rti]

end Sys2Proof.Machine
end

