-- ==== Sys2Proof/Certificates/Slice0/Obligations.lean ====
section
/-! DEFINITION. The statements for the provers, in the order: encoding, the step, what a step may change,
the instructions family by family, the assembler and the macros. A docstring names the rules of spec/ that a
statement formalises, and the log entry where it rests on a choice. -/

section Statements

open Sys2Proof Sys2Proof.Machine Sys2Proof.Asm

/-! ## Encoding (spec/30_encoding.md) -/

/-- Decoding an encoded instruction gives it back, with every operand at every value, whatever bytes
follow (R81, R87, R98: every `Instr` is well-formed). -/
def Obligations.DecodeInvertsEncode : Prop :=
  ∀ (i : Instr) (rest : List Byte), decode (encode i ++ rest) = .instr i rest

/-- Every byte sequence that decodes is the encoding of what it decodes to: each word has one meaning
(R87). -/
def Obligations.EncodeInvertsDecode : Prop :=
  ∀ (bs : List Byte) (i : Instr) (rest : List Byte), decode bs = .instr i rest → bs = encode i ++ rest

/-- Decoding refuses a sequence exactly when its first byte is one of the four unassigned ones (R96), and
finds it too short exactly when it is shorter than its opcode byte says (R89). -/
def Obligations.DecodeRefusesOnlyUnassigned : Prop :=
  ∀ (b : Byte) (rest : List Byte),
    (decode (b :: rest) = .unassigned b ↔ UnassignedOpcode b) ∧
    (∀ c, decode (b :: rest) = .unassigned c → c = b) ∧
    (decode (b :: rest) = .truncated ↔ ¬UnassignedOpcode b ∧ rest.length + 1 < lengthOfOpcode b)

/-- The opcode map of R88 in numbers, with the operand fields of R81 (register fields of the RR
instructions: log 29; `rts` as 0xD7: log 21; one byte for `move`, `and`, `or`, `xor`: log 20). -/
def Obligations.OpcodeMap : Prop :=
  ∀ (rn rm : Reg) (x : Byte) (a : Addr),
    encode (.move rn rm) = [BitVec.ofNat 8 (0x00 + 4 * regNumber rn + regNumber rm)] ∧
    encode (.add rn rm) = [BitVec.ofNat 8 (0x10 + 4 * regNumber rn + regNumber rm)] ∧
    encode (.addc rn rm) = [BitVec.ofNat 8 (0x20 + 4 * regNumber rn + regNumber rm)] ∧
    encode (.sub rn rm) = [BitVec.ofNat 8 (0x30 + 4 * regNumber rn + regNumber rm)] ∧
    encode (.and rn rm) = [BitVec.ofNat 8 (0x40 + 4 * regNumber rn + regNumber rm)] ∧
    encode (.or rn rm) = [BitVec.ofNat 8 (0x50 + 4 * regNumber rn + regNumber rm)] ∧
    encode (.xor rn rm) = [BitVec.ofNat 8 (0x60 + 4 * regNumber rn + regNumber rm)] ∧
    encode (.cmp rn rm) = [BitVec.ofNat 8 (0x70 + 4 * regNumber rn + regNumber rm)] ∧
    encode (.not rn) = [BitVec.ofNat 8 (0x80 + regNumber rn)] ∧
    encode (.neg rn) = [BitVec.ofNat 8 (0x84 + regNumber rn)] ∧
    encode (.dec rn) = [BitVec.ofNat 8 (0x88 + regNumber rn)] ∧
    encode (.inc rn) = [BitVec.ofNat 8 (0x8C + regNumber rn)] ∧
    encode (.shr rn) = [BitVec.ofNat 8 (0x90 + regNumber rn)] ∧
    encode (.shla rn) = [BitVec.ofNat 8 (0x94 + regNumber rn)] ∧
    encode (.shra rn) = [BitVec.ofNat 8 (0x98 + regNumber rn)] ∧
    encode (.rol rn) = [BitVec.ofNat 8 (0x9C + regNumber rn)] ∧
    encode (.st rn rm) = [BitVec.ofNat 8 (0xA0 + 4 * regNumber rn + regNumber rm)] ∧
    encode (.ld rn rm) = [BitVec.ofNat 8 (0xB0 + 4 * regNumber rn + regNumber rm)] ∧
    encode (.push rn) = [BitVec.ofNat 8 (0xC0 + regNumber rn)] ∧
    encode (.pop rn) = [BitVec.ofNat 8 (0xC4 + regNumber rn)] ∧
    encode (.ldsa rn x) = [BitVec.ofNat 8 (0xC8 + regNumber rn), x] ∧
    encode (.addsp x) = [0xCC, x] ∧ encode (.setsp x) = [0xCD, x] ∧
    encode .pushall = [0xCE] ∧ encode .popall = [0xCF] ∧
    encode (.ldi rn x) = [BitVec.ofNat 8 (0xD0 + regNumber rn), x] ∧
    encode .halt = [0xD4] ∧ encode .wait = [0xD5] ∧
    encode (.jsr a) = [0xD6, BitVec.ofNat 8 a.toNat, BitVec.ofNat 8 (a.toNat / 256)] ∧
    encode .rts = [0xD7] ∧ encode .ioi = [0xD8] ∧ encode .rti = [0xD9] ∧ encode .crc = [0xDA] ∧
    encode (.jmp a) = [0xDD, BitVec.ofNat 8 a.toNat, BitVec.ofNat 8 (a.toNat / 256)] ∧
    encode (.beq x) = [0xE0, x] ∧ encode (.bne x) = [0xE1, x] ∧ encode (.bhs x) = [0xE2, x] ∧
    encode (.blo x) = [0xE3, x] ∧ encode (.bmi x) = [0xE4, x] ∧ encode (.bpl x) = [0xE5, x] ∧
    encode (.bvs x) = [0xE6, x] ∧ encode (.bvc x) = [0xE7, x] ∧ encode (.bhi x) = [0xE8, x] ∧
    encode (.bls x) = [0xE9, x] ∧ encode (.bge x) = [0xEA, x] ∧ encode (.blt x) = [0xEB, x] ∧
    encode (.bgt x) = [0xEC, x] ∧ encode (.ble x) = [0xED, x] ∧ encode (.br x) = [0xEE, x] ∧
    encode (.bfalse x) = [0xEF, x] ∧
    encode (.ldc rn rm) = [BitVec.ofNat 8 (0xF0 + 4 * regNumber rn + regNumber rm)]

/-- The manual's five binary examples (R82), a `jmp` (R88), a `ble` (R81, 43_control.md R171), and an
unassigned byte (R96, a decision of the spec: D9, log 26), written out bit by bit. -/
def Obligations.SampleWordsDecode : Prop :=
  decode [0b11010001, 0b01101110] = .instr (.ldi .r1 0x6E) [] ∧
  decode [0b10110011] = .instr (.ld .r0 .r3) [] ∧
  decode [0b10100100] = .instr (.st .r1 .r0) [] ∧
  decode [0b11000010] = .instr (.push .r2) [] ∧
  decode [0b11000111] = .instr (.pop .r3) [] ∧
  decode [0b11011101, 0b00110111, 0b00010011] = .instr (.jmp 0x1337) [] ∧
  decode [0b11101101, 0b00000100] = .instr (.ble 0x04) [] ∧
  decode [0b11011111] = .unassigned 0xDF

/-! ## The step (spec/60_exceptions.md, spec/70_reset_and_hazards.md) -/

/-- A step runs the decoded instruction (R228): at a boundary that runs `i`, `step` is `exec i`, and the
outcome stands at the next boundary, with this boundary's input used up. -/
def Obligations.StepRunsDecodedInstruction : Prop :=
  ∀ (s : State) (i : Instr), Executes s i →
    ∃ t, exec i s = .next t ∧
      step s = .next { t with inputs := s.inputs.tail, boundary := s.boundary + 1 }

/-- A step faults exactly where it would run an unassigned opcode byte, with PC one further (R96, R220;
a fault of the model, log 26), and is never refused. -/
def Obligations.StepFaultsOnlyAtUnassigned : Prop :=
  (∀ (s : State) (f : Fault), step s = .fault f ↔
    RunsInstruction s ∧ UnassignedOpcode (s.readCode s.pc) ∧
      f = .illegalInstruction (s.readCode s.pc) (s.pc + 1)) ∧
  ∀ (s : State) (r : Refusal), step s ≠ .refused r

/-- Every instruction completes in every state: there is no trap, no privilege and no access that faults
(R210, R220), and no instruction touches the parameters or the inputs. -/
def Obligations.EveryInstructionCompletes : Prop :=
  ∀ (i : Instr) (s : State), ∃ t, exec i s = .next t ∧ OutsideKept s t

/-- A step that goes on leaves `arch` and `ldc_high` as they are and moves to the next boundary. -/
def Obligations.StepAdvancesBoundary : Prop :=
  ∀ s t : State, step s = .next t → OutsideAdvanced s t

/-- An interrupt is taken at a boundary with a request and I = 1, running or waiting (R213, R214): the
entry of R215 with return address PC, and the clock runs. (The return address and the frame are decisions
of the spec: log 11, log 12.) -/
def Obligations.InterruptIsTaken : Prop :=
  ∀ s : State, TakesInterrupt s →
    ∃ t, step s = .next t ∧ EntryEffect s.input.irqVector s.pc s t ∧ t.clock = .running ∧
      OutsideAdvanced s t

/-- With I = 0 a request has no effect on the processor at all (R213; log 10). -/
def Obligations.MaskedRequestHasNoEffect : Prop :=
  ∀ (s : State) (x : BoundaryInput) (rest : List BoundaryInput), flagI s.ps = false →
    step { s with inputs := { x with irqReq := true } :: rest } =
      step { s with inputs := { x with irqReq := false } :: rest }

/-- A boundary with a stopped clock changes nothing of the machine: `halted` whatever is requested, and
`waiting` while no request meets I = 1 (R214, R228; log 9, log 10). -/
def Obligations.StoppedClockStep : Prop :=
  ∀ s : State, s.input.reset = none →
    (s.clock = .halted ∨ s.clock = .waiting ∧ (flagI s.ps = false ∨ s.input.irqReq = false)) →
    ∃ t, step s = .next t ∧ SameMachine s t ∧ OutsideAdvanced s t

/-- A reset overrides every other event, a halted or waiting clock included (R219, R240), and leaves the
reset state of R241: registers zero, the clock running (log 7), the memories the supplied images, of two
entries for one cell the later one (log 8). -/
def Obligations.ResetOverridesEverything : Prop :=
  ∀ (s : State) (img : ResetImage), s.input.reset = some img →
    ∃ t, step s = .next t ∧ (∀ r, t.reg r = 0) ∧ t.sp = 0 ∧ t.ps = 0 ∧ t.pc = 0 ∧
      t.clock = .running ∧ OutsideAdvanced s t ∧
      (∀ c : Addr, t.readCode c = (img.code.reverse.lookup c.toNat).getD Config.unlistedByte) ∧
      (∀ a : Byte, s.arch = .harvard →
        t.readData a = (img.data.reverse.lookup a.toNat).getD Config.unlistedByte) ∧
      ∀ a : Byte, s.arch = .vonNeumann → t.readData a = t.readCode (zext16 a)

/-- The machine right after reset (10_state.md R42, R241; the clock: log 7): the registers are zero,
interrupts are disabled, and what happens first is the instruction at code address 0x0000. -/
def Obligations.ResetStateValues : Prop :=
  (∀ r, State.reset.reg r = 0) ∧ State.reset.sp = 0 ∧ State.reset.ps = 0 ∧ State.reset.pc = 0 ∧
  State.reset.clock = .running ∧ flagI State.reset.ps = false ∧ RunsInstruction State.reset

/-! ## What a step may change -/

/-- THE INVARIANT: every step keeps both memories in canonical form, from every state that has it (log 1:
the form is the model's own). -/
def Obligations.StepKeepsMemoriesCanonical : Prop :=
  ∀ s t : State, MemoriesCanonical s → step s = .next t → MemoriesCanonical t

/-- The memories after reset are canonical. The MODEL's choice and no rule of the spec: both the form and
that `State.reset` lists no cell are log 1. -/
def Obligations.ResetMemoriesCanonical : Prop := MemoriesCanonical State.reset

/-- Who writes memory (20_memory.md R55, R62, R66): a step without a reset changes only data cells its
access list writes, and a code cell only under `arch = VonNeumann`, where it is such a data cell. -/
def Obligations.StepWritesOnlyListedCells : Prop :=
  ∀ s t : State, step s = .next t → s.input.reset = none →
    (∀ a, t.readData a ≠ s.readData a → a ∈ writtenAddresses (boundaryAccesses s)) ∧
    ∀ c, t.readCode c ≠ s.readCode c →
      s.arch = .vonNeumann ∧ ∃ a ∈ writtenAddresses (boundaryAccesses s), c = zext16 a

/-- Who writes the general registers (10_state.md R22): without a reset, only an instruction that names the
register as its destination, and `popall`. -/
def Obligations.StepWritesOnlyNamedRegisters : Prop :=
  ∀ (s t : State) (r : Reg), step s = .next t → s.input.reset = none → t.reg r ≠ s.reg r →
    ∃ i, Executes s i ∧ r ∈ writtenRegs i

/-- Who writes SP (10_state.md R23): without a reset, only an interrupt entry and the instructions listed
there. -/
def Obligations.StepWritesStackPointerOnlyBy : Prop :=
  ∀ s t : State, step s = .next t → s.input.reset = none → t.sp ≠ s.sp →
    TakesInterrupt s ∨ ∃ i, Executes s i ∧ writesSp i = true

/-- Who writes PS (10_state.md R29, R30, R34, R35; log 25): without a reset, bits 7 to 4 change only by an
interrupt entry, `ioi` or `rti`; any bit only by these and the instructions of 42_arithmetic.md. -/
def Obligations.StepWritesStatusOnlyBy : Prop :=
  ∀ s t : State, step s = .next t → s.input.reset = none →
    (∀ k, 4 ≤ k → t.ps.getLsbD k ≠ s.ps.getLsbD k →
      TakesInterrupt s ∨ Executes s .ioi ∨ Executes s .rti) ∧
    (t.ps ≠ s.ps → TakesInterrupt s ∨ ∃ i, Executes s i ∧ (i = .ioi ∨ i = .rti ∨ writesFlags i = true))

/-- Where PC goes (10_state.md R26, R28): an instruction that is neither a control instruction nor `halt`
nor `wait` leaves PC at the byte after it, modulo 65536 (log 23). -/
def Obligations.PlainInstructionsAdvance : Prop :=
  ∀ (s t : State) (i : Instr), Executes s i → redirects i = false → step s = .next t →
    t.pc.toNat = (s.pc.toNat + (encode i).length) % 65536

/-- The transitions of the clock (10_state.md R40; log 7, log 9, log 10): without a reset, it stops only by
`halt` and `wait`, and starts only by an interrupt that ends a `wait`. -/
def Obligations.ClockTransitions : Prop :=
  ∀ s t : State, step s = .next t → s.input.reset = none → t.clock ≠ s.clock →
    t.clock = .halted ∧ Executes s .halt ∨ t.clock = .waiting ∧ Executes s .wait ∨
    t.clock = .running ∧ s.clock = .waiting ∧ TakesInterrupt s

/-- The end of a run (70_reset_and_hazards.md R246; log 9): after `halt`, with no reset listed and, by the
model's choice (log 4), none beyond the list, the machine stays as it is for ever, whatever interrupts are
requested. A hang (44_clock_control.md R191, R192; log 10): a `wait` with I = 0 repeats for ever under the
same premise, and is no end. -/
def Obligations.EndAndHangPersist : Prop :=
  ∀ (n : Nat) (s : State), NoResetListed s →
    (Ended s → ∃ t, core.run n s = .next t ∧ SameMachine s t ∧ Ended t) ∧
    (Hung s → ∃ t, core.run n s = .next t ∧ SameMachine s t ∧ Hung t ∧ ¬Ended t)

/-- Return from an interrupt (60_exceptions.md R217; log 12): `rti` on the frame that an entry left restores
PC, PS and SP, and only the three stack bytes of the frame differ. -/
def Obligations.ReturnUndoesInterrupt : Prop :=
  ∀ s : State, TakesInterrupt s →
    ∃ u t, step s = .next u ∧ exec .rti u = .next t ∧ t.pc = s.pc ∧ t.ps = s.ps ∧ t.sp = s.sp ∧
      t.clock = .running ∧ RegsKept [] s t ∧ MemoryKept [s.sp - 1, s.sp - 2, s.sp - 3] s t

/-! ## Memory access (spec/40_memory_access.md) -/

/-- `ldi rn, const` (R120). -/
def Obligations.LoadImmediateWritesConstant : Prop :=
  ∀ (rn : Reg) (imm : Byte) (s : State),
    encode (.ldi rn imm) = [BitVec.ofNat 8 (0xD0 + regNumber rn), imm] ∧
    ∃ t, exec (.ldi rn imm) s = .next t ∧ t.reg rn = imm ∧ t.sp = s.sp ∧ t.ps = s.ps ∧
      Advanced 2 s t ∧ Frame [rn] [] s t

/-- `ld rn, rm` (R121): the address is read before the register is written; under `arch = VonNeumann` the
cell is one of the shared memory. -/
def Obligations.LoadDataReadsCell : Prop :=
  ∀ (rn rm : Reg) (s : State),
    encode (.ld rn rm) = [BitVec.ofNat 8 (0xB0 + 4 * regNumber rn + regNumber rm)] ∧
    ∃ t, exec (.ld rn rm) s = .next t ∧ t.reg rm = s.readData (s.reg rn) ∧
      (s.arch = .vonNeumann → t.reg rm = s.readCode (zext16 (s.reg rn))) ∧
      t.sp = s.sp ∧ t.ps = s.ps ∧ Advanced 1 s t ∧ Frame [rm] [] s t

/-- `ldc rn, rm` (R122; the upper address byte is the parameter `ldc_high`, log 3). -/
def Obligations.LoadCodeReadsCell : Prop :=
  ∀ (rn rm : Reg) (s : State),
    ∃ t, exec (.ldc rn rm) s = .next t ∧
      t.reg rm = s.readCode (BitVec.ofNat 16 (s.ldcHigh.toNat * 256 + (s.reg rn).toNat)) ∧
      t.sp = s.sp ∧ t.ps = s.ps ∧ Advanced 1 s t ∧ Frame [rm] [] s t

/-- `st rn, rm` (R123): the cell at the address in rn takes the content of rm; under `arch = VonNeumann` a
later fetch from that address sees it (20_memory.md R62, R66; log 30). -/
def Obligations.StoreDataWritesCell : Prop :=
  ∀ (rn rm : Reg) (s : State),
    ∃ t, exec (.st rn rm) s = .next t ∧ t.readData (dataAddress s rn) = s.reg rm ∧
      (s.arch = .vonNeumann → t.readCode (zext16 (dataAddress s rn)) = s.reg rm) ∧
      t.sp = s.sp ∧ t.ps = s.ps ∧ Advanced 1 s t ∧ Frame [] [dataAddress s rn] s t

/-! ## The stack (spec/41_stack.md) -/

/-- `push rn` (R130): SP is lowered by 1 modulo 256, then the byte is stored there. -/
def Obligations.PushStoresBelowSp : Prop :=
  ∀ (rn : Reg) (s : State),
    encode (.push rn) = [BitVec.ofNat 8 (0xC0 + regNumber rn)] ∧
    ∃ t, exec (.push rn) s = .next t ∧ t.sp.toNat = (s.sp.toNat + 255) % 256 ∧
      t.readData t.sp = s.reg rn ∧ t.ps = s.ps ∧ Advanced 1 s t ∧ Frame [] [s.sp - 1] s t

/-- `pop rn` (R131): the byte at SP, then SP is raised by 1 modulo 256. -/
def Obligations.PopLoadsAndRaisesSp : Prop :=
  ∀ (rn : Reg) (s : State),
    encode (.pop rn) = [BitVec.ofNat 8 (0xC4 + regNumber rn)] ∧
    ∃ t, exec (.pop rn) s = .next t ∧ t.reg rn = s.readData s.sp ∧
      t.sp.toNat = (s.sp.toNat + 1) % 256 ∧ t.ps = s.ps ∧ Advanced 1 s t ∧ Frame [rn] [] s t

/-- `ldsa rn, const` (R132): SP plus the constant modulo 256, read as unsigned or as signed; no memory is
accessed but for the fetch. -/
def Obligations.LoadStackAddressAddsToSp : Prop :=
  ∀ (rn : Reg) (imm : Byte) (s : State),
    encode (.ldsa rn imm) = [BitVec.ofNat 8 (0xC8 + regNumber rn), imm] ∧
    ∃ t, exec (.ldsa rn imm) s = .next t ∧ (t.reg rn).toNat = (s.sp.toNat + imm.toNat) % 256 ∧
      ((t.reg rn).toNat : Int) = ((s.sp.toNat : Int) + signed8 imm) % 256 ∧
      t.sp = s.sp ∧ t.ps = s.ps ∧ Advanced 2 s t ∧ Frame [rn] [] s t ∧
      furtherAccesses (.ldsa rn imm) s = []

/-- `addsp const` (R133) and `setsp const` (R134). Neither accesses memory but for its fetch. -/
def Obligations.AddspAndSetspWriteSp : Prop :=
  ∀ (imm : Byte) (s : State),
    encode (.addsp imm) = [0b11001100, imm] ∧ encode (.setsp imm) = [0b11001101, imm] ∧
    furtherAccesses (.addsp imm) s = [] ∧ furtherAccesses (.setsp imm) s = [] ∧
    (∃ t, exec (.addsp imm) s = .next t ∧ t.sp.toNat = (s.sp.toNat + imm.toNat) % 256 ∧
      t.ps = s.ps ∧ Advanced 2 s t ∧ Frame [] [] s t) ∧
    ∃ t, exec (.setsp imm) s = .next t ∧ t.sp = imm ∧ t.ps = s.ps ∧ Advanced 2 s t ∧ Frame [] [] s t

/-- `pushall` (R135): r3, r2, r1, r0 at SP - 1 to SP - 4, each address modulo 256; the effect of four
pushes. -/
def Obligations.PushAllStoresFourRegisters : Prop :=
  ∀ s : State,
    encode .pushall = [0b11001110] ∧
    ∃ t u, exec .pushall s = .next t ∧
      t.readData (stackAddressBelow s 1) = s.reg .r3 ∧ t.readData (stackAddressBelow s 2) = s.reg .r2 ∧
      t.readData (stackAddressBelow s 3) = s.reg .r1 ∧ t.readData (stackAddressBelow s 4) = s.reg .r0 ∧
      t.sp.toNat = (s.sp.toNat + 252) % 256 ∧ t.ps = s.ps ∧ Advanced 1 s t ∧
      Frame [] [stackAddressBelow s 1, stackAddressBelow s 2, stackAddressBelow s 3,
        stackAddressBelow s 4] s t ∧
      execAll [.push .r3, .push .r2, .push .r1, .push .r0] s = .next u ∧ t = { u with pc := t.pc }

/-- `popall` (R136): r0 to r3 from SP to SP + 3, each address modulo 256; the effect of four pops; and it
undoes `pushall`. -/
def Obligations.PopAllLoadsFourRegisters : Prop :=
  ∀ s : State,
    encode .popall = [0b11001111] ∧
    (∃ t u, exec .popall s = .next t ∧
      t.reg .r0 = s.readData s.sp ∧ t.reg .r1 = s.readData (s.sp + 1) ∧
      t.reg .r2 = s.readData (s.sp + 2) ∧ t.reg .r3 = s.readData (s.sp + 3) ∧
      t.sp.toNat = (s.sp.toNat + 4) % 256 ∧ t.ps = s.ps ∧ Advanced 1 s t ∧
      Frame [.r0, .r1, .r2, .r3] [] s t ∧
      execAll [.pop .r0, .pop .r1, .pop .r2, .pop .r3] s = .next u ∧ t = { u with pc := t.pc }) ∧
    ∃ t, execAll [.pushall, .popall] s = .next t ∧ t.sp = s.sp ∧ t.ps = s.ps ∧ RegsKept [] s t

/-! ## Arithmetic, logic and shifts (spec/42_arithmetic.md) -/

/-- `move rn, rm` (R141; the direction is a conflict of the manual resolved by the spec, log 19). -/
def Obligations.MoveCopiesFirstToSecond : Prop :=
  ∀ (rn rm : Reg) (s : State),
    ∃ t, exec (.move rn rm) s = .next t ∧ t.reg rm = s.reg rn ∧
      FlagsAre false false (decide ((t.reg rm).toNat = 0)) ((t.reg rm).getLsbD 7) s t ∧
      t.sp = s.sp ∧ Advanced 1 s t ∧ Frame [rm] [] s t

/-- `add rn, rm` (R142): V by the rule's comparison of bits 7, which is the two's complement overflow. -/
def Obligations.AddWritesSumAndFlags : Prop :=
  ∀ (rn rm : Reg) (s : State),
    encode (.add rn rm) = [BitVec.ofNat 8 (0x10 + 4 * regNumber rn + regNumber rm)] ∧
    ∃ t, exec (.add rn rm) s = .next t ∧
      (t.reg rm).toNat = ((s.reg rn).toNat + (s.reg rm).toNat) % 256 ∧
      FlagsAre (decide (256 ≤ (s.reg rn).toNat + (s.reg rm).toNat))
        (decide ((s.reg rn).getLsbD 7 = (s.reg rm).getLsbD 7 ∧
          (t.reg rm).getLsbD 7 ≠ (s.reg rn).getLsbD 7))
        (decide ((t.reg rm).toNat = 0)) ((t.reg rm).getLsbD 7) s t ∧
      (flagV t.ps = true ↔ signed8 (s.reg rn) + signed8 (s.reg rm) < -128 ∨
        127 < signed8 (s.reg rn) + signed8 (s.reg rm)) ∧
      t.sp = s.sp ∧ Advanced 1 s t ∧ Frame [rm] [] s t

/-- `addc rn, rm` (R143): the incoming C is added. -/
def Obligations.AddWithCarryWritesSumAndFlags : Prop :=
  ∀ (rn rm : Reg) (s : State),
    encode (.addc rn rm) = [BitVec.ofNat 8 (0x20 + 4 * regNumber rn + regNumber rm)] ∧
    ∃ t, exec (.addc rn rm) s = .next t ∧
      (t.reg rm).toNat = ((s.reg rn).toNat + (s.reg rm).toNat + bitValue (flagC s.ps)) % 256 ∧
      FlagsAre (decide (256 ≤ (s.reg rn).toNat + (s.reg rm).toNat + bitValue (flagC s.ps)))
        (decide ((s.reg rn).getLsbD 7 = (s.reg rm).getLsbD 7 ∧
          (t.reg rm).getLsbD 7 ≠ (s.reg rn).getLsbD 7))
        (decide ((t.reg rm).toNat = 0)) ((t.reg rm).getLsbD 7) s t ∧
      (flagV t.ps = true ↔
        signed8 (s.reg rn) + signed8 (s.reg rm) + (bitValue (flagC s.ps) : Int) < -128 ∨
        127 < signed8 (s.reg rn) + signed8 (s.reg rm) + (bitValue (flagC s.ps) : Int)) ∧
      t.sp = s.sp ∧ Advanced 1 s t ∧ Frame [rm] [] s t

/-- `sub rn, rm` (R144): rn - rm into rm; C = 1 means no borrow and V is the signed overflow (decisions of
the spec, log 13, log 14). -/
def Obligations.SubtractWritesDifferenceAndFlags : Prop :=
  ∀ (rn rm : Reg) (s : State),
    ∃ t, exec (.sub rn rm) s = .next t ∧
      ((t.reg rm).toNat : Int) = (((s.reg rn).toNat : Int) - (s.reg rm).toNat) % 256 ∧
      FlagsAre (decide ((s.reg rm).toNat ≤ (s.reg rn).toNat))
        (decide (signed8 (s.reg rn) - signed8 (s.reg rm) < -128 ∨
          127 < signed8 (s.reg rn) - signed8 (s.reg rm)))
        (decide (s.reg rn = s.reg rm)) ((t.reg rm).getLsbD 7) s t ∧
      t.sp = s.sp ∧ Advanced 1 s t ∧ Frame [rm] [] s t

/-- `cmp rn, rm` (R145): the flags of `sub`, and no register changes (log 13, log 14). -/
def Obligations.CompareSetsFlagsOnly : Prop :=
  ∀ (rn rm : Reg) (s : State),
    ∃ t u, exec (.cmp rn rm) s = .next t ∧ exec (.sub rn rm) s = .next u ∧ t.ps = u.ps ∧
      FlagsAre (decide ((s.reg rm).toNat ≤ (s.reg rn).toNat))
        (decide (signed8 (s.reg rn) - signed8 (s.reg rm) < -128 ∨
          127 < signed8 (s.reg rn) - signed8 (s.reg rm)))
        (decide (s.reg rn = s.reg rm)) ((s.reg rn - s.reg rm).getLsbD 7) s t ∧
      t.sp = s.sp ∧ Advanced 1 s t ∧ Frame [] [] s t

/-- What the conditions mean after `cmp` and `sub` (43_control.md R173): the unsigned and the two's
complement order of the operands before the instruction. -/
def Obligations.ConditionsAfterCompare : Prop :=
  ∀ (i : Instr) (rn rm : Reg) (s : State), i = .cmp rn rm ∨ i = .sub rn rm →
    ∃ t, exec i s = .next t ∧
      (condHolds .eq t.ps = true ↔ s.reg rn = s.reg rm) ∧
      (condHolds .ne t.ps = true ↔ s.reg rn ≠ s.reg rm) ∧
      (condHolds .hs t.ps = true ↔ (s.reg rm).toNat ≤ (s.reg rn).toNat) ∧
      (condHolds .lo t.ps = true ↔ (s.reg rn).toNat < (s.reg rm).toNat) ∧
      (condHolds .hi t.ps = true ↔ (s.reg rm).toNat < (s.reg rn).toNat) ∧
      (condHolds .ls t.ps = true ↔ (s.reg rn).toNat ≤ (s.reg rm).toNat) ∧
      (condHolds .ge t.ps = true ↔ signed8 (s.reg rm) ≤ signed8 (s.reg rn)) ∧
      (condHolds .lt t.ps = true ↔ signed8 (s.reg rn) < signed8 (s.reg rm)) ∧
      (condHolds .gt t.ps = true ↔ signed8 (s.reg rm) < signed8 (s.reg rn)) ∧
      (condHolds .le t.ps = true ↔ signed8 (s.reg rn) ≤ signed8 (s.reg rm)) ∧
      (condHolds .mi t.ps = true ↔ 128 ≤ (((s.reg rn).toNat : Int) - (s.reg rm).toNat) % 256) ∧
      (condHolds .pl t.ps = true ↔ (((s.reg rn).toNat : Int) - (s.reg rm).toNat) % 256 < 128) ∧
      (condHolds .vs t.ps = true ↔ signed8 (s.reg rn) - signed8 (s.reg rm) < -128 ∨
        127 < signed8 (s.reg rn) - signed8 (s.reg rm)) ∧
      (condHolds .vc t.ps = true ↔ -128 ≤ signed8 (s.reg rn) - signed8 (s.reg rm) ∧
        signed8 (s.reg rn) - signed8 (s.reg rm) ≤ 127)

/-- `neg rn` (R146): 0 - rn modulo 256. C and V are those of that subtraction (a decision of the spec,
log 17). -/
def Obligations.NegateWritesZeroMinusRegister : Prop :=
  ∀ (rn : Reg) (s : State),
    ∃ t, exec (.neg rn) s = .next t ∧
      (t.reg rn).toNat = (256 - (s.reg rn).toNat) % 256 ∧
      (s.reg rn ≠ 0x80 → signed8 (t.reg rn) = -signed8 (s.reg rn)) ∧
      (s.reg rn = 0x80 → t.reg rn = 0x80) ∧
      FlagsAre (decide (s.reg rn = 0x00)) (decide (s.reg rn = 0x80)) (decide ((t.reg rn).toNat = 0))
        ((t.reg rn).getLsbD 7) s t ∧
      t.sp = s.sp ∧ Advanced 1 s t ∧ Frame [rn] [] s t

/-- `inc rn` (R147; V = 0 for 0xFF is a conflict of the manual resolved by the spec, log 15) and `dec rn`
(R148; C and V are decisions of the spec, log 16). -/
def Obligations.IncrementAndDecrementByOne : Prop :=
  ∀ (rn : Reg) (s : State),
    (∃ t, exec (.inc rn) s = .next t ∧ (t.reg rn).toNat = ((s.reg rn).toNat + 1) % 256 ∧
      FlagsAre (decide (s.reg rn = 0xFF)) (decide (s.reg rn = 0x7F)) (decide ((t.reg rn).toNat = 0))
        ((t.reg rn).getLsbD 7) s t ∧
      t.sp = s.sp ∧ Advanced 1 s t ∧ Frame [rn] [] s t) ∧
    ∃ t, exec (.dec rn) s = .next t ∧ (t.reg rn).toNat = ((s.reg rn).toNat + 255) % 256 ∧
      FlagsAre (decide (s.reg rn ≠ 0x00)) (decide (s.reg rn = 0x80)) (decide ((t.reg rn).toNat = 0))
        ((t.reg rn).getLsbD 7) s t ∧
      t.sp = s.sp ∧ Advanced 1 s t ∧ Frame [rn] [] s t

/-- `and rn, rm` (R149), `or rn, rm` (R150) and `xor rn, rm` (R151), bit by bit; C and V become 0; an
operand with itself. (One byte each: log 20.) -/
def Obligations.AndOrXorWriteBitwiseResult : Prop :=
  ∀ (rn rm : Reg) (s : State),
    (∃ t, exec (.and rn rm) s = .next t ∧
      (∀ k, (t.reg rm).getLsbD k = ((s.reg rn).getLsbD k && (s.reg rm).getLsbD k)) ∧
      FlagsAre false false (decide ((t.reg rm).toNat = 0)) ((t.reg rm).getLsbD 7) s t ∧
      t.sp = s.sp ∧ Advanced 1 s t ∧ Frame [rm] [] s t) ∧
    (∃ t, exec (.or rn rm) s = .next t ∧
      (∀ k, (t.reg rm).getLsbD k = ((s.reg rn).getLsbD k || (s.reg rm).getLsbD k)) ∧
      FlagsAre false false (decide ((t.reg rm).toNat = 0)) ((t.reg rm).getLsbD 7) s t ∧
      t.sp = s.sp ∧ Advanced 1 s t ∧ Frame [rm] [] s t) ∧
    ∃ t, exec (.xor rn rm) s = .next t ∧
      (∀ k, (t.reg rm).getLsbD k = ((s.reg rn).getLsbD k ^^ (s.reg rm).getLsbD k)) ∧
      (rn = rm → t.reg rm = 0) ∧
      FlagsAre false false (decide ((t.reg rm).toNat = 0)) ((t.reg rm).getLsbD 7) s t ∧
      t.sp = s.sp ∧ Advanced 1 s t ∧ Frame [rm] [] s t

/-- `not rn` (R152): 255 - rn, which flips all bits; C and V become 0. -/
def Obligations.NotWritesComplement : Prop :=
  ∀ (rn : Reg) (s : State),
    encode (.not rn) = [BitVec.ofNat 8 (0x80 + regNumber rn)] ∧
    ∃ t, exec (.not rn) s = .next t ∧ (t.reg rn).toNat = 255 - (s.reg rn).toNat ∧
      (∀ k, k < 8 → (t.reg rn).getLsbD k = !(s.reg rn).getLsbD k) ∧
      FlagsAre false false (decide ((t.reg rn).toNat = 0)) ((t.reg rn).getLsbD 7) s t ∧
      t.sp = s.sp ∧ Advanced 1 s t ∧ Frame [rn] [] s t

/-- `shra rn` (R153): bit 7 is kept; the quotient of the two's complement number by 2, and the remainder
in C. -/
def Obligations.ShraKeepsSignBit : Prop :=
  ∀ (rn : Reg) (s : State),
    encode (.shra rn) = [BitVec.ofNat 8 (0x98 + regNumber rn)] ∧
    ∃ t, exec (.shra rn) s = .next t ∧
      (t.reg rn).toNat = bitValue ((s.reg rn).getLsbD 7) * 128 + (s.reg rn).toNat / 2 ∧
      signed8 (s.reg rn) = 2 * signed8 (t.reg rn) + (bitValue (flagC t.ps) : Int) ∧
      FlagsAre ((s.reg rn).getLsbD 0) false (decide ((t.reg rn).toNat = 0)) ((t.reg rn).getLsbD 7) s t ∧
      t.sp = s.sp ∧ Advanced 1 s t ∧ Frame [rn] [] s t

/-- `shla rn` (R154): twice the number modulo 256, old bit 7 into C, V when bit 7 changes; the effect of
`add rn, rn`. -/
def Obligations.ShlaDoublesAndSetsFlags : Prop :=
  ∀ (rn : Reg) (s : State),
    encode (.shla rn) = [BitVec.ofNat 8 (0x94 + regNumber rn)] ∧
    ∃ t, exec (.shla rn) s = .next t ∧ (t.reg rn).toNat = (2 * (s.reg rn).toNat) % 256 ∧
      (flagV t.ps = false → signed8 (t.reg rn) = 2 * signed8 (s.reg rn)) ∧
      FlagsAre ((s.reg rn).getLsbD 7) ((s.reg rn).getLsbD 7 ^^ (t.reg rn).getLsbD 7)
        (decide ((t.reg rn).toNat = 0)) ((t.reg rn).getLsbD 7) s t ∧
      exec (.add rn rn) s = .next t ∧
      t.sp = s.sp ∧ Advanced 1 s t ∧ Frame [rn] [] s t

/-- `shr rn` (R155): the old C into bit 7, the others one place right, bit 0 into C. -/
def Obligations.ShrShiftsCarryIn : Prop :=
  ∀ (rn : Reg) (s : State),
    encode (.shr rn) = [BitVec.ofNat 8 (0x90 + regNumber rn)] ∧
    ∃ t, exec (.shr rn) s = .next t ∧ (t.reg rn).getLsbD 7 = flagC s.ps ∧
      (∀ k, k < 7 → (t.reg rn).getLsbD k = (s.reg rn).getLsbD (k + 1)) ∧
      FlagsAre ((s.reg rn).getLsbD 0) false (decide ((t.reg rn).toNat = 0)) (flagC s.ps) s t ∧
      t.sp = s.sp ∧ Advanced 1 s t ∧ Frame [rn] [] s t

/-- `rol rn` (R156): an 8-bit rotate, bit 7 into bit 0 and into C; eight in a row restore the register.
(V = 0 is a conflict of the manual resolved by the spec, log 18.) -/
def Obligations.RolRotatesIntoCarry : Prop :=
  ∀ (rn : Reg) (s : State),
    (∃ t, exec (.rol rn) s = .next t ∧ (t.reg rn).getLsbD 0 = (s.reg rn).getLsbD 7 ∧
      (∀ k, k < 7 → (t.reg rn).getLsbD (k + 1) = (s.reg rn).getLsbD k) ∧
      FlagsAre ((s.reg rn).getLsbD 7) false (decide ((t.reg rn).toNat = 0)) ((t.reg rn).getLsbD 7) s t ∧
      t.sp = s.sp ∧ Advanced 1 s t ∧ Frame [rn] [] s t) ∧
    ∃ t, execAll (List.replicate 8 (.rol rn)) s = .next t ∧ t.reg rn = s.reg rn

/-! ## Control (spec/43_control.md) -/

/-- The branches on one flag, `br` and `bfalse` (R170, R171; the base A + 2 is a decision of the spec,
log 22; PC wraps: log 23). -/
def Obligations.SimpleBranchesTestOneFlag : Prop :=
  ∀ (off : Byte) (s : State),
    BranchOutcome (flagZ s.ps) (.beq off) off s ∧ BranchOutcome (!flagZ s.ps) (.bne off) off s ∧
    BranchOutcome (flagC s.ps) (.bhs off) off s ∧ BranchOutcome (!flagC s.ps) (.blo off) off s ∧
    BranchOutcome (flagN s.ps) (.bmi off) off s ∧ BranchOutcome (!flagN s.ps) (.bpl off) off s ∧
    BranchOutcome (flagV s.ps) (.bvs off) off s ∧ BranchOutcome (!flagV s.ps) (.bvc off) off s ∧
    BranchOutcome true (.br off) off s ∧ BranchOutcome false (.bfalse off) off s

/-- The branches on several flags, by the formulas of R171's "test" column (R170; log 22, log 23). -/
def Obligations.CompoundBranchesTestFlags : Prop :=
  ∀ (off : Byte) (s : State),
    BranchOutcome (flagC s.ps && !flagZ s.ps) (.bhi off) off s ∧
    BranchOutcome (!flagC s.ps || flagZ s.ps) (.bls off) off s ∧
    BranchOutcome ((flagN s.ps && flagV s.ps) || (!flagN s.ps && !flagV s.ps)) (.bge off) off s ∧
    BranchOutcome (flagN s.ps ^^ flagV s.ps) (.blt off) off s ∧
    BranchOutcome ((!flagZ s.ps && flagN s.ps && flagV s.ps) ||
      (!flagZ s.ps && !flagN s.ps && !flagV s.ps)) (.bgt off) off s ∧
    BranchOutcome (flagZ s.ps || (flagN s.ps && !flagV s.ps) || (!flagN s.ps && flagV s.ps))
      (.ble off) off s

/-- `jmp const` (R174). -/
def Obligations.JumpSetsPc : Prop :=
  ∀ (target : Addr) (s : State),
    encode (.jmp target) = [0b11011101, lo target, hi target] ∧
    ∃ t, exec (.jmp target) s = .next t ∧ t.pc = target ∧ t.sp = s.sp ∧ t.ps = s.ps ∧
      t.clock = s.clock ∧ Frame [] [] s t

/-- `jsr const` (R175): the address after the instruction is pushed, its low byte at the new SP, its high
byte at the next address, modulo 256. -/
def Obligations.JsrPushesReturnAddress : Prop :=
  ∀ (target : Addr) (s : State),
    encode (.jsr target) = [0b11010110, lo target, hi target] ∧
    ∃ t, exec (.jsr target) s = .next t ∧ t.pc = target ∧ t.sp.toNat = (s.sp.toNat + 254) % 256 ∧
      (t.readData t.sp).toNat = (s.pc.toNat + 3) % 65536 % 256 ∧
      (t.readData (t.sp + 1)).toNat = (s.pc.toNat + 3) % 65536 / 256 ∧
      t.ps = s.ps ∧ t.clock = s.clock ∧
      Frame [] [stackAddressBelow s 2, stackAddressBelow s 1] s t

/-- `rts` (R176): PC from the two bytes at SP, SP raised by 2; and `rts` after `jsr` goes on after the
`jsr`. (The opcode 0xD7 is a correction of the manual, log 21.) -/
def Obligations.RtsPopsPc : Prop :=
  ∀ (target : Addr) (s : State),
    (∃ t, exec .rts s = .next t ∧
      t.pc.toNat = (s.readData (s.sp + 1)).toNat * 256 + (s.readData s.sp).toNat ∧
      t.sp.toNat = (s.sp.toNat + 2) % 256 ∧ t.ps = s.ps ∧ t.clock = s.clock ∧ Frame [] [] s t) ∧
    ∃ t, execAll [.jsr target, .rts] s = .next t ∧ t.pc.toNat = (s.pc.toNat + 3) % 65536 ∧ t.sp = s.sp

/-- `ioi` (R177): the interrupt entry whatever I is, with the vector number presented from outside and the
address after the instruction as return address (decisions of the spec, log 12, log 27). -/
def Obligations.IoiEntersInterrupt : Prop :=
  ∀ s : State,
    ∃ t, exec .ioi s = .next t ∧ EntryEffect s.input.irqVector (s.pc + 1) s t ∧ t.clock = s.clock ∧
      OutsideKept s t

/-- `rti` (R178): PS from SP, PC from SP + 1 and SP + 2, SP raised by 3 (log 12); after `ioi` it restores
PS and SP and goes on after the `ioi`. -/
def Obligations.RtiPopsStatusThenPc : Prop :=
  ∀ s : State,
    (∃ t, exec .rti s = .next t ∧ t.ps = s.readData s.sp ∧
      t.pc.toNat = (s.readData (s.sp + 2)).toNat * 256 + (s.readData (s.sp + 1)).toNat ∧
      t.sp.toNat = (s.sp.toNat + 3) % 256 ∧ t.clock = s.clock ∧ Frame [] [] s t) ∧
    ∃ t, execAll [.ioi, .rti] s = .next t ∧ t.ps = s.ps ∧ t.sp = s.sp ∧ t.pc = s.pc + 1 ∧
      RegsKept [] s t

/-- `crc` (R179): PC and the 16-bit value at SP change places, SP stays (16 bits: log 28); a second `crc`
goes on after the first. -/
def Obligations.CrcExchangesPcWithStack : Prop :=
  ∀ s : State,
    (∃ t, exec .crc s = .next t ∧
      t.pc.toNat = (s.readData (s.sp + 1)).toNat * 256 + (s.readData s.sp).toNat ∧
      (t.readData s.sp).toNat = (s.pc.toNat + 1) % 65536 % 256 ∧
      (t.readData (s.sp + 1)).toNat = (s.pc.toNat + 1) % 65536 / 256 ∧
      t.sp = s.sp ∧ t.ps = s.ps ∧ t.clock = s.clock ∧
      Frame [] [stackAddress s 0, stackAddress s 1] s t) ∧
    ∃ t, execAll [.crc, .crc] s = .next t ∧ t.pc.toNat = (s.pc.toNat + 1) % 65536 ∧ t.sp = s.sp

/-! ## Clock control (spec/44_clock_control.md) -/

/-- `halt` (R190) and `wait` (R191): the clock stops and nothing else changes, PC stays at the instruction
(log 7). -/
def Obligations.HaltAndWaitStopClockAtThemselves : Prop :=
  ∀ s : State,
    (∃ t, exec .halt s = .next t ∧ t.clock = .halted ∧ t.pc = s.pc ∧ t.sp = s.sp ∧ t.ps = s.ps ∧
      Frame [] [] s t) ∧
    ∃ t, exec .wait s = .next t ∧ t.clock = .waiting ∧ t.pc = s.pc ∧ t.sp = s.sp ∧ t.ps = s.ps ∧
      Frame [] [] s t

/-! ## The assembler and the macros (spec/30_encoding.md R86, R105; spec/45_macros.md) -/

/-- The operand of a branch in assembly (R86; log 22, log 35): the offset of a branch at `a` to `target` is
the one whose signed value is target - (A + 2), there is one exactly when that lies in -128..127, and the
taken branch then goes to the target. -/
def Obligations.BranchOperandReachesTarget : Prop :=
  ∀ a target : Addr,
    (∀ off, branchOffset a target = some off ↔
      signed8 off = (target.toNat : Int) - ((a.toNat : Int) + 2)) ∧
    (branchOffset a target = none ↔ (target.toNat : Int) - ((a.toNat : Int) + 2) < -128 ∨
      127 < (target.toNat : Int) - ((a.toNat : Int) + 2)) ∧
    ∀ off s, branchOffset a target = some off → s.pc = a →
      ∃ t, exec (.br off) s = .next t ∧ t.pc = target

/-- The long form of `goto` (R105; log 35): 5 bytes, a branch on the opposite condition and a `jmp`. The
opposite condition has the code `cc xor 1` and the opposite test (43_control.md R172). If the
condition holds, the branch is not taken and the `jmp` reaches the target; else the branch goes on after
the `jmp`. -/
def Obligations.GotoLongForm : Prop :=
  ∀ (c : Cond) (target : Addr) (s : State),
    ((gotoLong c target).flatMap encode).length = 5 ∧
    condCode (opposite c) = condCode c ^^^ 1 ∧ condHolds (opposite c) s.ps = !condHolds c s.ps ∧
    (condHolds c s.ps = true → ∃ t, execAll (gotoLong c target) s = .next t ∧ t.pc = target ∧
      t.sp = s.sp ∧ t.ps = s.ps ∧ Frame [] [] s t) ∧
    (condHolds c s.ps = false → ∃ t, execAll ((gotoLong c target).take 1) s = .next t ∧
      t.pc = s.pc + 5 ∧ t.sp = s.sp ∧ t.ps = s.ps ∧ Frame [] [] s t)

/-- The instruction sequences that the spec derives have the effect the manual states of the macros
(R196 to R202; log 34), but for C and V of `tst`: the manual calls them unchanged, no instruction leaves
them so, and the effect says nothing of them (90_conflicts.md C10). V = 0 after `clr` is the model's
deduction, R197 gives V no rule (log 34). Each `tst` and `clr` candidate is one instruction; `stv` uses one
stack byte and keeps its scratch register unless the constant names that byte; `ei` and `di` use three and
go on at `L` with SP as before. -/
def Obligations.MacroSequencesHaveTheEffect : Prop :=
  ∀ (rn rk : Reg) (const : Byte) (L : Addr) (s : State),
    (∀ i ∈ tstCandidates rn, ∃ t, exec i s = .next t ∧ macroEffect 0 (.tst rn) s t) ∧
    (∀ i ∈ clrCandidates rn, ∃ t, exec i s = .next t ∧ macroEffect 0 (.clr rn) s t) ∧
    (∃ t, execAll (shlSequence rn) s = .next t ∧ macroEffect 0 (.shl rn) s t) ∧
    (∃ t, execAll (ldvSequence const rn) s = .next t ∧ macroEffect 0 (.ldv const rn) s t) ∧
    (rk ≠ rn → ∃ t, execAll (stvSequence rk rn const) s = .next t ∧ macroEffect 1 (.stv rn const) s t ∧
      t.sp = s.sp ∧ (const ≠ s.sp - 1 → RegsKept [] s t)) ∧
    (∃ t, execAll (psSequence rk 0x80 L) s = .next t ∧ macroEffect 3 .ei s t ∧ t.pc = L ∧ t.sp = s.sp) ∧
    ∃ t, execAll (psSequence rk 0x00 L) s = .next t ∧ macroEffect 3 .di s t ∧ t.pc = L ∧ t.sp = s.sp

end Statements
end

