-- ==== Sys2Proof/Laws/Assembler.lean ====
section
/-! SUPPORT. What settling the `goto` statements of a program can answer (spec/30_encoding.md R105). -/

namespace Sys2Proof.Asm

/-- An item without the form of its `goto`. -/
def withoutForm : Item → Item
  | .goto c x _ => .goto c x false
  | x => x

/-- Sections without the forms of their `goto` statements. -/
def withoutForms (secs : List (Nat × List Item)) : List (Nat × List Item) :=
  secs.map fun s => (s.1, s.2.map withoutForm)

/-- A search that finds nothing has tried every choice of forms. -/
theorem searchItems_none {α : Type} {xs : List Item} : ∀ {k : List Item → Option α},
    searchItems k xs = none → ∀ ys, ys.map withoutForm = xs.map withoutForm → k ys = none := by
  induction xs with
  | nil =>
    intro k h ys hy
    obtain rfl : ys = [] := by simpa using hy
    exact h
  | cons x rest ih =>
    intro k h ys hy
    cases ys with
    | nil => simp at hy
    | cons y more =>
      simp only [List.map_cons, List.cons.injEq] at hy
      cases x with
      | goto c e long =>
        rw [searchItems] at h
        split at h
        · cases h
        · next hs =>
          cases y with
          | goto c' e' long' =>
            obtain ⟨rfl, rfl, -⟩ := Item.goto.inj hy.1
            cases long'
            · exact ih hs more hy.2
            · exact ih h more hy.2
          | label _ => cases hy.1
          | line _ _ => cases hy.1
      | label l =>
        cases y with
        | goto _ _ _ => cases hy.1
        | label _ => cases hy.1; exact ih (k := fun r => k (.label l :: r)) h more hy.2
        | line _ _ => cases hy.1
      | line m args =>
        cases y with
        | goto _ _ _ => cases hy.1
        | label _ => cases hy.1
        | line _ _ => cases hy.1; exact ih (k := fun r => k (.line m args :: r)) h more hy.2

/-- The same over all sections. -/
theorem searchSections_none {α : Type} {secs : List (Nat × List Item)} :
    ∀ {k : List (Nat × List Item) → Option α}, searchSections k secs = none →
      ∀ other, withoutForms other = withoutForms secs → k other = none := by
  induction secs with
  | nil =>
    intro k h other ho
    obtain rfl : other = [] := by simpa [withoutForms] using ho
    exact h
  | cons s rest ih =>
    intro k h other ho
    cases other with
    | nil => simp [withoutForms] at ho
    | cons o more =>
      simp only [withoutForms, List.map_cons, List.cons.injEq, Prod.mk.injEq] at ho
      have hs := ih (searchItems_none h o.2 ho.1.2) more ho.2
      rwa [← ho.1.1] at hs

/-- A search that answers has an answer of `k`. -/
theorem searchItems_some {α : Type} {xs : List Item} : ∀ {k : List Item → Option α} {y : α},
    searchItems k xs = some y → ∃ ys, k ys = some y := by
  induction xs with
  | nil => exact fun h => ⟨[], h⟩
  | cons x rest ih =>
    intro k y h
    cases x with
    | goto c e long =>
      rw [searchItems] at h
      split at h
      · next z hz =>
        obtain ⟨ys, hy⟩ := ih hz
        exact ⟨_, hy.trans h⟩
      · obtain ⟨ys, hy⟩ := ih h
        exact ⟨_, hy⟩
    | label l =>
      obtain ⟨ys, hy⟩ := ih (k := fun r => k (.label l :: r)) h
      exact ⟨_, hy⟩
    | line m args =>
      obtain ⟨ys, hy⟩ := ih (k := fun r => k (.line m args :: r)) h
      exact ⟨_, hy⟩

/-- The same over all sections. -/
theorem searchSections_some {α : Type} {secs : List (Nat × List Item)} :
    ∀ {k : List (Nat × List Item) → Option α} {y : α}, searchSections k secs = some y →
      ∃ other, k other = some y := by
  induction secs with
  | nil => exact fun h => ⟨[], h⟩
  | cons s rest ih =>
    intro k y h
    obtain ⟨xs, hx⟩ := searchItems_some h
    obtain ⟨more, hm⟩ := ih hx
    exact ⟨_, hm⟩

/-- Every `goto` has the form that R105 gives it, unless no choice of forms does that. -/
theorem settleGotos_settled (secs : List (Nat × List Item)) :
    gotosSettled (settleGotos secs) = true ∨
      ∀ other, withoutForms other = withoutForms secs → gotosSettled other = false := by
  unfold settleGotos
  dsimp only
  split
  · next h => exact .inl h
  · split
    · next x hx =>
      obtain ⟨other, ho⟩ := searchSections_some hx
      split at ho
      · next hs => cases ho; exact .inl hs
      · cases ho
    · next hn =>
      refine .inr fun other ho => ?_
      simpa using searchSections_none hn other ho

end Sys2Proof.Asm
end

