-- ==== Sys2Proof/Laws/Decode.lean ====
section
/-! SUPPORT. Small lemmas about the byte helpers and the decoder's parts. -/

namespace Sys2Proof

@[simp] theorem regOfBits_regBits (r : Reg) : regOfBits (regBits r) = r := by cases r <;> rfl

/-- A little-endian 16-bit value as a number. -/
theorem concat16_toNat (h l : Byte) : (concat16 h l).toNat = h.toNat * 256 + l.toNat := by
  have hl := l.isLt
  unfold concat16
  rw [BitVec.toNat_append, ← Nat.shiftLeft_add_eq_or_of_lt hl, Nat.shiftLeft_eq]

theorem lo_toNat (w : Addr) : (lo w).toNat = w.toNat % 256 := by simp [lo, BitVec.extractLsb'_toNat]

theorem hi_toNat (w : Addr) : (hi w).toNat = w.toNat / 256 := by
  have := w.isLt
  simp only [hi, BitVec.extractLsb'_toNat, Nat.shiftRight_eq_div_pow]
  omega

@[simp] theorem lo_concat16 (h l : Byte) : lo (concat16 h l) = l := by
  have := l.isLt
  apply BitVec.eq_of_toNat_eq
  rw [lo_toNat, concat16_toNat]
  omega

@[simp] theorem hi_concat16 (h l : Byte) : hi (concat16 h l) = h := by
  have := l.isLt
  apply BitVec.eq_of_toNat_eq
  rw [hi_toNat, concat16_toNat]
  omega

@[simp] theorem concat16_hi_lo (w : Addr) : concat16 (hi w) (lo w) = w := by
  apply BitVec.eq_of_toNat_eq
  rw [concat16_toNat, lo_toNat, hi_toNat]
  omega

end Sys2Proof
end

