-- ==== Sys2Proof/Laws/Flags.lean ====
section
/-! SUPPORT. The flags after `setFlags`, and each computation of C and V in the terms of numbers. -/

namespace Sys2Proof.Machine

/-! ## The bits of PS after a flag update (spec/00_scope.md R13) -/

theorem getLsbD_twoBits (x y : Bool) (k : Nat) :
    (twoBits x y).getLsbD k = if k = 0 then y else if k = 1 then x else false := by
  by_cases h : k < 8
  · have : k = 0 ∨ k = 1 ∨ k = 2 ∨ k = 3 ∨ k = 4 ∨ k = 5 ∨ k = 6 ∨ k = 7 := by omega
    rcases this with rfl | rfl | rfl | rfl | rfl | rfl | rfl | rfl <;> cases x <;> cases y <;> rfl
  · have h0 : k ≠ 0 := by omega
    have h1 : k ≠ 1 := by omega
    simp [BitVec.getLsbD_of_ge _ k (by omega : 8 ≤ k), h0, h1]

theorem getLsbD_setCV (ps : Byte) (c v : Bool) {k : Nat} (hk : k < 8) :
    (setCV ps c v).getLsbD k = if k = 3 then c else if k = 2 then v else ps.getLsbD k := by
  have : k = 0 ∨ k = 1 ∨ k = 2 ∨ k = 3 ∨ k = 4 ∨ k = 5 ∨ k = 6 ∨ k = 7 := by omega
  rcases this with rfl | rfl | rfl | rfl | rfl | rfl | rfl | rfl <;>
    simp only [setCV, BitVec.getLsbD_or, BitVec.getLsbD_and, BitVec.getLsbD_shiftLeft,
      getLsbD_twoBits] <;> simp

theorem getLsbD_setZN (ps r : Byte) {k : Nat} (hk : k < 8) :
    (setZN ps r).getLsbD k =
      if k = 1 then r == 0 else if k = 0 then r.getLsbD 7 else ps.getLsbD k := by
  have : k = 0 ∨ k = 1 ∨ k = 2 ∨ k = 3 ∨ k = 4 ∨ k = 5 ∨ k = 6 ∨ k = 7 := by omega
  rcases this with rfl | rfl | rfl | rfl | rfl | rfl | rfl | rfl <;>
    simp only [setZN, BitVec.getLsbD_or, BitVec.getLsbD_and, getLsbD_twoBits] <;> simp

/-- Every bit of PS after `setCV(c, v); setZN(r)`. -/
theorem getLsbD_setFlags (ps : Byte) (c v : Bool) (r : Byte) {k : Nat} (hk : k < 8) :
    (setFlags ps c v r).getLsbD k =
      if k = 1 then r == 0 else if k = 0 then r.getLsbD 7
      else if k = 3 then c else if k = 2 then v else ps.getLsbD k := by
  simp only [setFlags, getLsbD_setZN _ _ hk, getLsbD_setCV _ _ _ hk]

@[simp] theorem flagC_setFlags (ps : Byte) (c v : Bool) (r : Byte) : flagC (setFlags ps c v r) = c := by
  rw [flagC, getLsbD_setFlags ps c v r (by omega)]
  rfl

@[simp] theorem flagV_setFlags (ps : Byte) (c v : Bool) (r : Byte) : flagV (setFlags ps c v r) = v := by
  rw [flagV, getLsbD_setFlags ps c v r (by omega)]
  rfl

@[simp] theorem flagZ_setFlags (ps : Byte) (c v : Bool) (r : Byte) :
    flagZ (setFlags ps c v r) = (r == 0) := by
  rw [flagZ, getLsbD_setFlags ps c v r (by omega)]
  rfl

@[simp] theorem flagN_setFlags (ps : Byte) (c v : Bool) (r : Byte) :
    flagN (setFlags ps c v r) = r.getLsbD 7 := by
  rw [flagN, getLsbD_setFlags ps c v r (by omega)]
  rfl

/-- I and the reserved bits stay (spec/10_state.md R35). -/
theorem getLsbD_setFlags_high (ps : Byte) (c v : Bool) (r : Byte) {k : Nat} (hk : 4 ≤ k) :
    (setFlags ps c v r).getLsbD k = ps.getLsbD k := by
  by_cases h8 : k < 8
  · rw [getLsbD_setFlags _ _ _ _ h8]
    split
    · omega
    · split
      · omega
      · split
        · omega
        · split
          · omega
          · rfl
  · simp [BitVec.getLsbD_of_ge _ k (by omega : 8 ≤ k)]

@[simp] theorem flagI_setFlags (ps : Byte) (c v : Bool) (r : Byte) : flagI (setFlags ps c v r) = flagI ps :=
  getLsbD_setFlags_high ps c v r (by omega)

/-! ## `add8` and `sub8` (spec/42_arithmetic.md R140) -/

theorem add8_res_toNat (a b : Byte) (cin : Bool) :
    (add8 a b cin).res.toNat = (a.toNat + b.toNat + bitValue cin) % 256 := by
  simp [add8]

/-- C of an addition: the carry out of bit 7. -/
theorem add8_c (a b : Byte) (cin : Bool) :
    (add8 a b cin).c = decide (256 ≤ a.toNat + b.toNat + bitValue cin) := rfl

theorem getLsbD_seven (x : Byte) : x.getLsbD 7 = decide (128 ≤ x.toNat) := by
  have := x.isLt
  rw [← BitVec.msb_eq_getLsbD_last x, BitVec.msb_eq_decide]

theorem signed8_eq_toInt (x : Byte) : signed8 x = x.toInt := by
  simp only [signed8, BitVec.toInt_eq_toNat_cond]
  split <;> split <;> omega

/-- V of an addition: the true sum of the signed readings is outside -128 to 127. -/
theorem add8_v (a b : Byte) (cin : Bool) :
    (add8 a b cin).v = true ↔
      signed8 a + signed8 b + bitValue cin < -128 ∨ 127 < signed8 a + signed8 b + bitValue cin := by
  have ha := a.isLt
  have hb := b.isLt
  have hc : bitValue cin ≤ 1 := by cases cin <;> decide
  have hr : (BitVec.ofNat 8 (a.toNat + b.toNat + bitValue cin)).toNat
      = (a.toNat + b.toNat + bitValue cin) % 256 := by simp
  simp only [add8, Bool.and_eq_true, beq_iff_eq, bne_iff_ne, ne_eq, getLsbD_seven, hr,
    decide_eq_decide, signed8]
  generalize bitValue cin = d at *
  split <;> split <;> omega

theorem sub8_res (a b : Byte) : (sub8 a b).res = a - b := by
  have ha := a.isLt
  have hb := b.isLt
  apply BitVec.eq_of_toNat_eq
  simp only [sub8, add8_res_toNat, BitVec.toNat_not, BitVec.toNat_sub, bitValue, if_true]
  omega

/-- C of a subtraction: no borrow. -/
theorem sub8_c (a b : Byte) : (sub8 a b).c = decide (b.toNat ≤ a.toNat) := by
  have ha := a.isLt
  have hb := b.isLt
  simp only [sub8, add8_c, BitVec.toNat_not, bitValue, if_true, decide_eq_decide]
  omega

/-- V of a subtraction: the true difference of the signed readings is outside -128 to 127. -/
theorem sub8_v (a b : Byte) :
    (sub8 a b).v = true ↔ signed8 a - signed8 b < -128 ∨ 127 < signed8 a - signed8 b := by
  have ha := a.isLt
  have hb := b.isLt
  have hn : (~~~b).toNat = 255 - b.toNat := by simp [BitVec.toNat_not]
  have hs : signed8 (~~~b) = -signed8 b - 1 := by
    simp only [signed8, hn]
    split <;> split <;> omega
  rw [sub8, add8_v, hs]
  simp only [bitValue, if_true]
  omega

end Sys2Proof.Machine
end

