-- ==== Sys2Proof/Laws/State.lean ====
section
/-! SUPPORT. One lemma for each field of State and each update of it, true by `rfl`. -/

namespace Sys2Proof.Machine

variable (s : State)

/-! ## `State.setReg` -/

@[simp] theorem State.setReg_regs (r : Reg) (v : Byte) : (s.setReg r v).regs = s.regs.set r v := rfl
@[simp] theorem State.setReg_sp (r : Reg) (v : Byte) : (s.setReg r v).sp = s.sp := rfl
@[simp] theorem State.setReg_ps (r : Reg) (v : Byte) : (s.setReg r v).ps = s.ps := rfl
@[simp] theorem State.setReg_pc (r : Reg) (v : Byte) : (s.setReg r v).pc = s.pc := rfl
@[simp] theorem State.setReg_clock (r : Reg) (v : Byte) : (s.setReg r v).clock = s.clock := rfl
@[simp] theorem State.setReg_code (r : Reg) (v : Byte) : (s.setReg r v).code = s.code := rfl
@[simp] theorem State.setReg_data (r : Reg) (v : Byte) : (s.setReg r v).data = s.data := rfl
@[simp] theorem State.setReg_arch (r : Reg) (v : Byte) : (s.setReg r v).arch = s.arch := rfl
@[simp] theorem State.setReg_ldcHigh (r : Reg) (v : Byte) : (s.setReg r v).ldcHigh = s.ldcHigh := rfl
@[simp] theorem State.setReg_inputs (r : Reg) (v : Byte) : (s.setReg r v).inputs = s.inputs := rfl
@[simp] theorem State.setReg_boundary (r : Reg) (v : Byte) : (s.setReg r v).boundary = s.boundary := rfl

/-! ## `State.setSp` -/

@[simp] theorem State.setSp_regs (v : Byte) : (s.setSp v).regs = s.regs := rfl
@[simp] theorem State.setSp_sp (v : Byte) : (s.setSp v).sp = v := rfl
@[simp] theorem State.setSp_ps (v : Byte) : (s.setSp v).ps = s.ps := rfl
@[simp] theorem State.setSp_pc (v : Byte) : (s.setSp v).pc = s.pc := rfl
@[simp] theorem State.setSp_clock (v : Byte) : (s.setSp v).clock = s.clock := rfl
@[simp] theorem State.setSp_code (v : Byte) : (s.setSp v).code = s.code := rfl
@[simp] theorem State.setSp_data (v : Byte) : (s.setSp v).data = s.data := rfl
@[simp] theorem State.setSp_arch (v : Byte) : (s.setSp v).arch = s.arch := rfl
@[simp] theorem State.setSp_ldcHigh (v : Byte) : (s.setSp v).ldcHigh = s.ldcHigh := rfl
@[simp] theorem State.setSp_inputs (v : Byte) : (s.setSp v).inputs = s.inputs := rfl
@[simp] theorem State.setSp_boundary (v : Byte) : (s.setSp v).boundary = s.boundary := rfl

/-! ## `State.setPs` -/

@[simp] theorem State.setPs_regs (v : Byte) : (s.setPs v).regs = s.regs := rfl
@[simp] theorem State.setPs_sp (v : Byte) : (s.setPs v).sp = s.sp := rfl
@[simp] theorem State.setPs_ps (v : Byte) : (s.setPs v).ps = v := rfl
@[simp] theorem State.setPs_pc (v : Byte) : (s.setPs v).pc = s.pc := rfl
@[simp] theorem State.setPs_clock (v : Byte) : (s.setPs v).clock = s.clock := rfl
@[simp] theorem State.setPs_code (v : Byte) : (s.setPs v).code = s.code := rfl
@[simp] theorem State.setPs_data (v : Byte) : (s.setPs v).data = s.data := rfl
@[simp] theorem State.setPs_arch (v : Byte) : (s.setPs v).arch = s.arch := rfl
@[simp] theorem State.setPs_ldcHigh (v : Byte) : (s.setPs v).ldcHigh = s.ldcHigh := rfl
@[simp] theorem State.setPs_inputs (v : Byte) : (s.setPs v).inputs = s.inputs := rfl
@[simp] theorem State.setPs_boundary (v : Byte) : (s.setPs v).boundary = s.boundary := rfl

/-! ## `State.setPc` -/

@[simp] theorem State.setPc_regs (a : Addr) : (s.setPc a).regs = s.regs := rfl
@[simp] theorem State.setPc_sp (a : Addr) : (s.setPc a).sp = s.sp := rfl
@[simp] theorem State.setPc_ps (a : Addr) : (s.setPc a).ps = s.ps := rfl
@[simp] theorem State.setPc_pc (a : Addr) : (s.setPc a).pc = a := rfl
@[simp] theorem State.setPc_clock (a : Addr) : (s.setPc a).clock = s.clock := rfl
@[simp] theorem State.setPc_code (a : Addr) : (s.setPc a).code = s.code := rfl
@[simp] theorem State.setPc_data (a : Addr) : (s.setPc a).data = s.data := rfl
@[simp] theorem State.setPc_arch (a : Addr) : (s.setPc a).arch = s.arch := rfl
@[simp] theorem State.setPc_ldcHigh (a : Addr) : (s.setPc a).ldcHigh = s.ldcHigh := rfl
@[simp] theorem State.setPc_inputs (a : Addr) : (s.setPc a).inputs = s.inputs := rfl
@[simp] theorem State.setPc_boundary (a : Addr) : (s.setPc a).boundary = s.boundary := rfl

/-! ## `State.setClock` -/

@[simp] theorem State.setClock_regs (c : Clock) : (s.setClock c).regs = s.regs := rfl
@[simp] theorem State.setClock_sp (c : Clock) : (s.setClock c).sp = s.sp := rfl
@[simp] theorem State.setClock_ps (c : Clock) : (s.setClock c).ps = s.ps := rfl
@[simp] theorem State.setClock_pc (c : Clock) : (s.setClock c).pc = s.pc := rfl
@[simp] theorem State.setClock_clock (c : Clock) : (s.setClock c).clock = c := rfl
@[simp] theorem State.setClock_code (c : Clock) : (s.setClock c).code = s.code := rfl
@[simp] theorem State.setClock_data (c : Clock) : (s.setClock c).data = s.data := rfl
@[simp] theorem State.setClock_arch (c : Clock) : (s.setClock c).arch = s.arch := rfl
@[simp] theorem State.setClock_ldcHigh (c : Clock) : (s.setClock c).ldcHigh = s.ldcHigh := rfl
@[simp] theorem State.setClock_inputs (c : Clock) : (s.setClock c).inputs = s.inputs := rfl
@[simp] theorem State.setClock_boundary (c : Clock) : (s.setClock c).boundary = s.boundary := rfl

/-! ## `State.advance` -/

@[simp] theorem State.advance_regs (n : Nat) : (s.advance n).regs = s.regs := rfl
@[simp] theorem State.advance_sp (n : Nat) : (s.advance n).sp = s.sp := rfl
@[simp] theorem State.advance_ps (n : Nat) : (s.advance n).ps = s.ps := rfl
@[simp] theorem State.advance_pc (n : Nat) : (s.advance n).pc = s.pc + BitVec.ofNat 16 n := rfl
@[simp] theorem State.advance_clock (n : Nat) : (s.advance n).clock = s.clock := rfl
@[simp] theorem State.advance_code (n : Nat) : (s.advance n).code = s.code := rfl
@[simp] theorem State.advance_data (n : Nat) : (s.advance n).data = s.data := rfl
@[simp] theorem State.advance_arch (n : Nat) : (s.advance n).arch = s.arch := rfl
@[simp] theorem State.advance_ldcHigh (n : Nat) : (s.advance n).ldcHigh = s.ldcHigh := rfl
@[simp] theorem State.advance_inputs (n : Nat) : (s.advance n).inputs = s.inputs := rfl
@[simp] theorem State.advance_boundary (n : Nat) : (s.advance n).boundary = s.boundary := rfl

/-! ## `State.putFlags` -/

@[simp] theorem State.putFlags_regs (x : Alu) : (s.putFlags x).regs = s.regs := rfl
@[simp] theorem State.putFlags_sp (x : Alu) : (s.putFlags x).sp = s.sp := rfl
@[simp] theorem State.putFlags_ps (x : Alu) : (s.putFlags x).ps = setFlags s.ps x.c x.v x.res := rfl
@[simp] theorem State.putFlags_pc (x : Alu) : (s.putFlags x).pc = s.pc := rfl
@[simp] theorem State.putFlags_clock (x : Alu) : (s.putFlags x).clock = s.clock := rfl
@[simp] theorem State.putFlags_code (x : Alu) : (s.putFlags x).code = s.code := rfl
@[simp] theorem State.putFlags_data (x : Alu) : (s.putFlags x).data = s.data := rfl
@[simp] theorem State.putFlags_arch (x : Alu) : (s.putFlags x).arch = s.arch := rfl
@[simp] theorem State.putFlags_ldcHigh (x : Alu) : (s.putFlags x).ldcHigh = s.ldcHigh := rfl
@[simp] theorem State.putFlags_inputs (x : Alu) : (s.putFlags x).inputs = s.inputs := rfl
@[simp] theorem State.putFlags_boundary (x : Alu) : (s.putFlags x).boundary = s.boundary := rfl

/-! ## `State.putResult` -/

@[simp] theorem State.putResult_regs (r : Reg) (x : Alu) : (s.putResult r x).regs = s.regs.set r x.res := rfl
@[simp] theorem State.putResult_sp (r : Reg) (x : Alu) : (s.putResult r x).sp = s.sp := rfl
@[simp] theorem State.putResult_ps (r : Reg) (x : Alu) : (s.putResult r x).ps = setFlags s.ps x.c x.v x.res := rfl
@[simp] theorem State.putResult_pc (r : Reg) (x : Alu) : (s.putResult r x).pc = s.pc := rfl
@[simp] theorem State.putResult_clock (r : Reg) (x : Alu) : (s.putResult r x).clock = s.clock := rfl
@[simp] theorem State.putResult_code (r : Reg) (x : Alu) : (s.putResult r x).code = s.code := rfl
@[simp] theorem State.putResult_data (r : Reg) (x : Alu) : (s.putResult r x).data = s.data := rfl
@[simp] theorem State.putResult_arch (r : Reg) (x : Alu) : (s.putResult r x).arch = s.arch := rfl
@[simp] theorem State.putResult_ldcHigh (r : Reg) (x : Alu) : (s.putResult r x).ldcHigh = s.ldcHigh := rfl
@[simp] theorem State.putResult_inputs (r : Reg) (x : Alu) : (s.putResult r x).inputs = s.inputs := rfl
@[simp] theorem State.putResult_boundary (r : Reg) (x : Alu) : (s.putResult r x).boundary = s.boundary := rfl

/-! ## `State.tick` -/

@[simp] theorem State.tick_regs : s.tick.regs = s.regs := rfl
@[simp] theorem State.tick_sp : s.tick.sp = s.sp := rfl
@[simp] theorem State.tick_ps : s.tick.ps = s.ps := rfl
@[simp] theorem State.tick_pc : s.tick.pc = s.pc := rfl
@[simp] theorem State.tick_clock : s.tick.clock = s.clock := rfl
@[simp] theorem State.tick_code : s.tick.code = s.code := rfl
@[simp] theorem State.tick_data : s.tick.data = s.data := rfl
@[simp] theorem State.tick_arch : s.tick.arch = s.arch := rfl
@[simp] theorem State.tick_ldcHigh : s.tick.ldcHigh = s.ldcHigh := rfl
@[simp] theorem State.tick_inputs : s.tick.inputs = s.inputs.tail := rfl
@[simp] theorem State.tick_boundary : s.tick.boundary = s.boundary + 1 := rfl

/-! ## `State.writeData`: it changes one memory and nothing else -/

@[simp] theorem State.writeData_regs (a v : Byte) : (s.writeData a v).regs = s.regs := by
  unfold State.writeData; split <;> rfl
@[simp] theorem State.writeData_sp (a v : Byte) : (s.writeData a v).sp = s.sp := by
  unfold State.writeData; split <;> rfl
@[simp] theorem State.writeData_ps (a v : Byte) : (s.writeData a v).ps = s.ps := by
  unfold State.writeData; split <;> rfl
@[simp] theorem State.writeData_pc (a v : Byte) : (s.writeData a v).pc = s.pc := by
  unfold State.writeData; split <;> rfl
@[simp] theorem State.writeData_clock (a v : Byte) : (s.writeData a v).clock = s.clock := by
  unfold State.writeData; split <;> rfl
@[simp] theorem State.writeData_arch (a v : Byte) : (s.writeData a v).arch = s.arch := by
  unfold State.writeData; split <;> rfl
@[simp] theorem State.writeData_ldcHigh (a v : Byte) : (s.writeData a v).ldcHigh = s.ldcHigh := by
  unfold State.writeData; split <;> rfl
@[simp] theorem State.writeData_inputs (a v : Byte) : (s.writeData a v).inputs = s.inputs := by
  unfold State.writeData; split <;> rfl
@[simp] theorem State.writeData_boundary (a v : Byte) : (s.writeData a v).boundary = s.boundary := by
  unfold State.writeData; split <;> rfl

/-! ## `State.writeData16` -/

@[simp] theorem State.writeData16_regs (a : Byte) (w : Addr) : (s.writeData16 a w).regs = s.regs := by
  simp [State.writeData16]
@[simp] theorem State.writeData16_sp (a : Byte) (w : Addr) : (s.writeData16 a w).sp = s.sp := by
  simp [State.writeData16]
@[simp] theorem State.writeData16_ps (a : Byte) (w : Addr) : (s.writeData16 a w).ps = s.ps := by
  simp [State.writeData16]
@[simp] theorem State.writeData16_pc (a : Byte) (w : Addr) : (s.writeData16 a w).pc = s.pc := by
  simp [State.writeData16]
@[simp] theorem State.writeData16_clock (a : Byte) (w : Addr) : (s.writeData16 a w).clock = s.clock := by
  simp [State.writeData16]
@[simp] theorem State.writeData16_arch (a : Byte) (w : Addr) : (s.writeData16 a w).arch = s.arch := by
  simp [State.writeData16]
@[simp] theorem State.writeData16_ldcHigh (a : Byte) (w : Addr) : (s.writeData16 a w).ldcHigh = s.ldcHigh := by
  simp [State.writeData16]
@[simp] theorem State.writeData16_inputs (a : Byte) (w : Addr) : (s.writeData16 a w).inputs = s.inputs := by
  simp [State.writeData16]
@[simp] theorem State.writeData16_boundary (a : Byte) (w : Addr) : (s.writeData16 a w).boundary = s.boundary := by
  simp [State.writeData16]

/-! ## `State.pushByte` -/

@[simp] theorem State.pushByte_regs (v : Byte) : (s.pushByte v).regs = s.regs := by
  simp [State.pushByte]
@[simp] theorem State.pushByte_sp (v : Byte) : (s.pushByte v).sp = s.sp - 1 := by
  simp [State.pushByte]
@[simp] theorem State.pushByte_ps (v : Byte) : (s.pushByte v).ps = s.ps := by
  simp [State.pushByte]
@[simp] theorem State.pushByte_pc (v : Byte) : (s.pushByte v).pc = s.pc := by
  simp [State.pushByte]
@[simp] theorem State.pushByte_clock (v : Byte) : (s.pushByte v).clock = s.clock := by
  simp [State.pushByte]
@[simp] theorem State.pushByte_arch (v : Byte) : (s.pushByte v).arch = s.arch := by
  simp [State.pushByte]
@[simp] theorem State.pushByte_ldcHigh (v : Byte) : (s.pushByte v).ldcHigh = s.ldcHigh := by
  simp [State.pushByte]
@[simp] theorem State.pushByte_inputs (v : Byte) : (s.pushByte v).inputs = s.inputs := by
  simp [State.pushByte]
@[simp] theorem State.pushByte_boundary (v : Byte) : (s.pushByte v).boundary = s.boundary := by
  simp [State.pushByte]

/-! ## `State.pushWord` -/

@[simp] theorem State.pushWord_regs (w : Addr) : (s.pushWord w).regs = s.regs := by
  simp [State.pushWord]
@[simp] theorem State.pushWord_sp (w : Addr) : (s.pushWord w).sp = s.sp - 2 := by
  simp [State.pushWord]
@[simp] theorem State.pushWord_ps (w : Addr) : (s.pushWord w).ps = s.ps := by
  simp [State.pushWord]
@[simp] theorem State.pushWord_pc (w : Addr) : (s.pushWord w).pc = s.pc := by
  simp [State.pushWord]
@[simp] theorem State.pushWord_clock (w : Addr) : (s.pushWord w).clock = s.clock := by
  simp [State.pushWord]
@[simp] theorem State.pushWord_arch (w : Addr) : (s.pushWord w).arch = s.arch := by
  simp [State.pushWord]
@[simp] theorem State.pushWord_ldcHigh (w : Addr) : (s.pushWord w).ldcHigh = s.ldcHigh := by
  simp [State.pushWord]
@[simp] theorem State.pushWord_inputs (w : Addr) : (s.pushWord w).inputs = s.inputs := by
  simp [State.pushWord]
@[simp] theorem State.pushWord_boundary (w : Addr) : (s.pushWord w).boundary = s.boundary := by
  simp [State.pushWord]

/-! ## Registers -/

/-- Reading a register back after writing it. -/
@[simp] theorem Regs.get_set_same (rs : Regs) (r : Reg) (v : Byte) : (rs.set r v).get r = v := by
  cases r <;> rfl

/-- Writing one register leaves the others. -/
@[simp] theorem Regs.get_set_of_ne (rs : Regs) {r q : Reg} (v : Byte) (h : q ≠ r) :
    (rs.set r v).get q = rs.get q := by
  cases r <;> cases q <;> first | rfl | exact absurd rfl h

theorem Regs.get_set (rs : Regs) (r q : Reg) (v : Byte) :
    (rs.set r v).get q = if q = r then v else rs.get q := by
  split
  · next h => subst h; simp
  · next h => simp [h]

/-- Two register files with the same four registers are the same. -/
theorem Regs.ext_get {x y : Regs} (h : ∀ r, x.get r = y.get r) : x = y := by
  have h0 := h .r0
  have h1 := h .r1
  have h2 := h .r2
  have h3 := h .r3
  cases x; cases y
  simp only [Regs.get] at h0 h1 h2 h3
  simp [h0, h1, h2, h3]

theorem State.reg_eq (r : Reg) : s.reg r = s.regs.get r := rfl

@[simp] theorem State.reg_setReg_same (r : Reg) (v : Byte) : (s.setReg r v).reg r = v :=
  Regs.get_set_same s.regs r v

@[simp] theorem State.reg_setReg_of_ne {r q : Reg} (v : Byte) (h : q ≠ r) :
    (s.setReg r v).reg q = s.reg q :=
  Regs.get_set_of_ne s.regs v h

theorem State.reg_setReg (r q : Reg) (v : Byte) :
    (s.setReg r v).reg q = if q = r then v else s.reg q :=
  Regs.get_set s.regs r q v

@[simp] theorem State.reg_setSp (v : Byte) (q : Reg) : (s.setSp v).reg q = s.reg q := rfl
@[simp] theorem State.reg_setPs (v : Byte) (q : Reg) : (s.setPs v).reg q = s.reg q := rfl
@[simp] theorem State.reg_setPc (a : Addr) (q : Reg) : (s.setPc a).reg q = s.reg q := rfl
@[simp] theorem State.reg_setClock (c : Clock) (q : Reg) : (s.setClock c).reg q = s.reg q := rfl
@[simp] theorem State.reg_advance (n : Nat) (q : Reg) : (s.advance n).reg q = s.reg q := rfl
@[simp] theorem State.reg_putFlags (x : Alu) (q : Reg) : (s.putFlags x).reg q = s.reg q := rfl
@[simp] theorem State.reg_tick (q : Reg) : s.tick.reg q = s.reg q := rfl
@[simp] theorem State.reg_writeData (a v : Byte) (q : Reg) : (s.writeData a v).reg q = s.reg q := by
  simp [State.reg_eq]
@[simp] theorem State.reg_writeData16 (a : Byte) (w : Addr) (q : Reg) : (s.writeData16 a w).reg q = s.reg q := by
  simp [State.reg_eq]
@[simp] theorem State.reg_pushByte (v : Byte) (q : Reg) : (s.pushByte v).reg q = s.reg q := by
  simp [State.reg_eq]
@[simp] theorem State.reg_pushWord (w : Addr) (q : Reg) : (s.pushWord w).reg q = s.reg q := by
  simp [State.reg_eq]

@[simp] theorem State.reg_putResult_same (r : Reg) (x : Alu) : (s.putResult r x).reg r = x.res :=
  Regs.get_set_same s.regs r x.res

@[simp] theorem State.reg_putResult_of_ne {r q : Reg} (x : Alu) (h : q ≠ r) :
    (s.putResult r x).reg q = s.reg q :=
  Regs.get_set_of_ne s.regs x.res h

/-! ## Reading memory after an update that is no store -/

@[simp] theorem State.readData_setReg (r : Reg) (v : Byte) (d : Byte) : (s.setReg r v).readData d = s.readData d := rfl
@[simp] theorem State.readCode_setReg (r : Reg) (v : Byte) (c : Addr) : (s.setReg r v).readCode c = s.readCode c := rfl
@[simp] theorem State.readData16_setReg (r : Reg) (v : Byte) (d : Byte) : (s.setReg r v).readData16 d = s.readData16 d := rfl
@[simp] theorem State.readCode16_setReg (r : Reg) (v : Byte) (c : Addr) : (s.setReg r v).readCode16 c = s.readCode16 c := rfl
@[simp] theorem State.input_setReg (r : Reg) (v : Byte) : (s.setReg r v).input = s.input := rfl
@[simp] theorem State.readData_setSp (v : Byte) (d : Byte) : (s.setSp v).readData d = s.readData d := rfl
@[simp] theorem State.readCode_setSp (v : Byte) (c : Addr) : (s.setSp v).readCode c = s.readCode c := rfl
@[simp] theorem State.readData16_setSp (v : Byte) (d : Byte) : (s.setSp v).readData16 d = s.readData16 d := rfl
@[simp] theorem State.readCode16_setSp (v : Byte) (c : Addr) : (s.setSp v).readCode16 c = s.readCode16 c := rfl
@[simp] theorem State.input_setSp (v : Byte) : (s.setSp v).input = s.input := rfl
@[simp] theorem State.readData_setPs (v : Byte) (d : Byte) : (s.setPs v).readData d = s.readData d := rfl
@[simp] theorem State.readCode_setPs (v : Byte) (c : Addr) : (s.setPs v).readCode c = s.readCode c := rfl
@[simp] theorem State.readData16_setPs (v : Byte) (d : Byte) : (s.setPs v).readData16 d = s.readData16 d := rfl
@[simp] theorem State.readCode16_setPs (v : Byte) (c : Addr) : (s.setPs v).readCode16 c = s.readCode16 c := rfl
@[simp] theorem State.input_setPs (v : Byte) : (s.setPs v).input = s.input := rfl
@[simp] theorem State.readData_setPc (a : Addr) (d : Byte) : (s.setPc a).readData d = s.readData d := rfl
@[simp] theorem State.readCode_setPc (a : Addr) (c : Addr) : (s.setPc a).readCode c = s.readCode c := rfl
@[simp] theorem State.readData16_setPc (a : Addr) (d : Byte) : (s.setPc a).readData16 d = s.readData16 d := rfl
@[simp] theorem State.readCode16_setPc (a : Addr) (c : Addr) : (s.setPc a).readCode16 c = s.readCode16 c := rfl
@[simp] theorem State.input_setPc (a : Addr) : (s.setPc a).input = s.input := rfl
@[simp] theorem State.readData_setClock (c : Clock) (d : Byte) : (s.setClock c).readData d = s.readData d := rfl
@[simp] theorem State.readCode_setClock (k : Clock) (c : Addr) : (s.setClock k).readCode c = s.readCode c := rfl
@[simp] theorem State.readData16_setClock (c : Clock) (d : Byte) : (s.setClock c).readData16 d = s.readData16 d := rfl
@[simp] theorem State.readCode16_setClock (k : Clock) (c : Addr) : (s.setClock k).readCode16 c = s.readCode16 c := rfl
@[simp] theorem State.input_setClock (c : Clock) : (s.setClock c).input = s.input := rfl
@[simp] theorem State.readData_advance (n : Nat) (d : Byte) : (s.advance n).readData d = s.readData d := rfl
@[simp] theorem State.readCode_advance (n : Nat) (c : Addr) : (s.advance n).readCode c = s.readCode c := rfl
@[simp] theorem State.readData16_advance (n : Nat) (d : Byte) : (s.advance n).readData16 d = s.readData16 d := rfl
@[simp] theorem State.readCode16_advance (n : Nat) (c : Addr) : (s.advance n).readCode16 c = s.readCode16 c := rfl
@[simp] theorem State.input_advance (n : Nat) : (s.advance n).input = s.input := rfl
@[simp] theorem State.readData_putFlags (x : Alu) (d : Byte) : (s.putFlags x).readData d = s.readData d := rfl
@[simp] theorem State.readCode_putFlags (x : Alu) (c : Addr) : (s.putFlags x).readCode c = s.readCode c := rfl
@[simp] theorem State.readData16_putFlags (x : Alu) (d : Byte) : (s.putFlags x).readData16 d = s.readData16 d := rfl
@[simp] theorem State.readCode16_putFlags (x : Alu) (c : Addr) : (s.putFlags x).readCode16 c = s.readCode16 c := rfl
@[simp] theorem State.input_putFlags (x : Alu) : (s.putFlags x).input = s.input := rfl
@[simp] theorem State.readData_putResult (r : Reg) (x : Alu) (d : Byte) : (s.putResult r x).readData d = s.readData d := rfl
@[simp] theorem State.readCode_putResult (r : Reg) (x : Alu) (c : Addr) : (s.putResult r x).readCode c = s.readCode c := rfl
@[simp] theorem State.readData16_putResult (r : Reg) (x : Alu) (d : Byte) : (s.putResult r x).readData16 d = s.readData16 d := rfl
@[simp] theorem State.readCode16_putResult (r : Reg) (x : Alu) (c : Addr) : (s.putResult r x).readCode16 c = s.readCode16 c := rfl
@[simp] theorem State.input_putResult (r : Reg) (x : Alu) : (s.putResult r x).input = s.input := rfl
@[simp] theorem State.readData_tick (d : Byte) : s.tick.readData d = s.readData d := rfl
@[simp] theorem State.readCode_tick (c : Addr) : s.tick.readCode c = s.readCode c := rfl
@[simp] theorem State.readData16_tick (d : Byte) : s.tick.readData16 d = s.readData16 d := rfl
@[simp] theorem State.readCode16_tick (c : Addr) : s.tick.readCode16 c = s.readCode16 c := rfl

end Sys2Proof.Machine
end

