-- ==== Sys2Proof/Laws/Memory.lean ====
section
/-! SUPPORT. The laws of a memory: reading after writing, and the canonical form that every operation
keeps. -/

namespace Sys2Proof.Machine

/-! ## Reading after writing -/

theorem readCell_eraseCell_same (m : Memory) (a : Nat) :
    readCell (eraseCell m a) a = Config.unlistedByte := by
  induction m with
  | nil => rfl
  | cons c rest ih =>
    obtain ⟨k, v⟩ := c
    by_cases h : k = a
    · simpa [eraseCell, h] using ih
    · simpa [eraseCell, h, readCell] using ih

theorem readCell_eraseCell_of_ne (m : Memory) {a b : Nat} (h : b ≠ a) :
    readCell (eraseCell m a) b = readCell m b := by
  induction m with
  | nil => rfl
  | cons c rest ih =>
    obtain ⟨k, v⟩ := c
    by_cases hk : k = a
    · simpa [eraseCell, hk, readCell, h.symm] using ih
    · simp only [eraseCell, List.filter_cons, bne_iff_ne, ne_eq, hk, not_false_eq_true, if_true,
        readCell]
      split
      · rfl
      · simpa [eraseCell] using ih

theorem readCell_insertCell_of_ne (m : Memory) {a b : Nat} (v : Byte) (h : b ≠ a) :
    readCell (insertCell m a v) b = readCell m b := by
  induction m with
  | nil => simp [insertCell, readCell, h.symm]
  | cons c rest ih =>
    obtain ⟨k, w⟩ := c
    simp only [insertCell]
    split
    · simp [readCell, h.symm]
    · simp [readCell, ih]

theorem readCell_insertCell_same (m : Memory) (a : Nat) (v : Byte) (h : ∀ c ∈ m, c.1 ≠ a) :
    readCell (insertCell m a v) a = v := by
  induction m with
  | nil => simp [insertCell, readCell]
  | cons c rest ih =>
    obtain ⟨k, w⟩ := c
    have hk : k ≠ a := h (k, w) (by simp)
    simp only [insertCell]
    split
    · simp [readCell]
    · simpa [readCell, hk] using ih fun c hc => h c (by simp [hc])

theorem eraseCell_ne (m : Memory) (a : Nat) : ∀ c ∈ eraseCell m a, c.1 ≠ a := by
  intro c hc
  simpa using (List.mem_filter.mp hc).2

/-- Reading back what was written. -/
@[simp] theorem readCell_writeCell_same (m : Memory) (a : Nat) (v : Byte) :
    readCell (writeCell m a v) a = v := by
  unfold writeCell
  split
  · next h => rw [readCell_eraseCell_same, h]
  · exact readCell_insertCell_same _ a v (eraseCell_ne m a)

/-- A write leaves every other cell. -/
@[simp] theorem readCell_writeCell_of_ne (m : Memory) {a b : Nat} (v : Byte) (h : b ≠ a) :
    readCell (writeCell m a v) b = readCell m b := by
  unfold writeCell
  split
  · exact readCell_eraseCell_of_ne m h
  · rw [readCell_insertCell_of_ne _ v h, readCell_eraseCell_of_ne m h]

theorem readCell_writeCell (m : Memory) (a b : Nat) (v : Byte) :
    readCell (writeCell m a v) b = if b = a then v else readCell m b := by
  split
  · next h => subst h; simp
  · next h => simp [h]

/-! ## The canonical form -/

theorem Memory.wf_nil (size : Nat) : Memory.wf size [] := by simp [Memory.wf]

theorem Memory.wf_eraseCell {size : Nat} {m : Memory} (h : m.wf size) (a : Nat) :
    Memory.wf size (eraseCell m a) :=
  ⟨h.1.filter _, fun c hc => h.2 c (List.mem_filter.mp hc).1⟩

theorem mem_insertCell {m : Memory} {a : Nat} {v : Byte} {c : Host.Cell}
    (h : c ∈ insertCell m a v) : c = (a, v) ∨ c ∈ m := by
  induction m with
  | nil => simpa [insertCell] using h
  | cons x rest ih =>
    obtain ⟨k, w⟩ := x
    simp only [insertCell] at h
    split at h
    · simpa using h
    · rcases List.mem_cons.mp h with rfl | h
      · simp
      · rcases ih h with rfl | h
        · simp
        · simp [h]

theorem Memory.wf_insertCell {size : Nat} {m : Memory} (h : m.wf size) {a : Nat} {v : Byte}
    (ha : a < size) (hv : v ≠ Config.unlistedByte) (hm : ∀ c ∈ m, c.1 ≠ a) :
    Memory.wf size (insertCell m a v) := by
  refine ⟨?_, fun c hc => ?_⟩
  · induction m with
    | nil => simp [insertCell]
    | cons x rest ih =>
      obtain ⟨k, w⟩ := x
      obtain ⟨hp, hall⟩ := h
      have hp' := List.pairwise_cons.mp hp
      have hk : k ≠ a := hm (k, w) (by simp)
      simp only [insertCell]
      split
      · next hlt =>
        refine List.pairwise_cons.mpr ⟨fun c hc => ?_, hp⟩
        rcases List.mem_cons.mp hc with rfl | hc
        · exact hlt
        · exact Nat.lt_trans hlt (hp'.1 c hc)
      · next hge =>
        have hrest := ih ⟨hp'.2, fun c hc => hall c (by simp [hc])⟩ fun c hc => hm c (by simp [hc])
        refine List.pairwise_cons.mpr ⟨fun c hc => ?_, hrest⟩
        rcases mem_insertCell hc with rfl | hc
        · show k < a
          omega
        · exact hp'.1 c hc
  · rcases mem_insertCell hc with rfl | hc
    · exact ⟨ha, hv⟩
    · exact h.2 c hc

/-- A write keeps the canonical form. -/
theorem Memory.wf_writeCell {size : Nat} {m : Memory} (h : m.wf size) {a : Nat} (v : Byte)
    (ha : a < size) : Memory.wf size (writeCell m a v) := by
  unfold writeCell
  split
  · exact Memory.wf_eraseCell h a
  · next hv => exact Memory.wf_insertCell (Memory.wf_eraseCell h a) ha hv (eraseCell_ne m a)

/-- A memory loaded from outside stands in canonical form, whatever is loaded. -/
theorem Memory.wf_loadImage (size : Nat) (cells : List Host.Cell) :
    Memory.wf size (loadImage size cells) := by
  suffices h : ∀ m : Memory, m.wf size →
      Memory.wf size (cells.foldl (fun m c => if c.1 < size then writeCell m c.1 c.2 else m) m) from
    h [] (Memory.wf_nil size)
  induction cells with
  | nil => exact fun m h => h
  | cons c rest ih =>
    intro m h
    refine ih _ ?_
    dsimp only
    split
    · next hlt => exact Memory.wf_writeCell h c.2 hlt
    · exact h

/-! ## Reading the two memories after a store (10_state.md R38, 20_memory.md R62) -/

theorem zext16_toNat (a : Byte) : (zext16 a).toNat = a.toNat := by
  simp [zext16]
  omega

theorem zext16_inj {a b : Byte} : zext16 a = zext16 b ↔ a = b := by
  rw [← BitVec.toNat_inj, zext16_toNat, zext16_toNat, BitVec.toNat_inj]

/-- A data byte read after a store: the byte stored at its address, and every other byte as before. -/
theorem State.readData_writeData (s : State) (a v d : Byte) :
    (s.writeData a v).readData d = if d = a then v else s.readData d := by
  unfold State.readData State.writeData
  cases s.arch
  · simp [readCell_writeCell, BitVec.toNat_inj]
  · simp [readCell_writeCell, BitVec.toNat_inj, zext16_inj]

@[simp] theorem State.readData_writeData_same (s : State) (a v : Byte) :
    (s.writeData a v).readData a = v := by
  simp [State.readData_writeData]

@[simp] theorem State.readData_writeData_of_ne (s : State) {a d : Byte} (v : Byte) (h : d ≠ a) :
    (s.writeData a v).readData d = s.readData d := by
  simp [State.readData_writeData, h]

/-- A code byte read after a store: only under `arch = VonNeumann` can it be the byte stored. -/
theorem State.readCode_writeData (s : State) (a v : Byte) (c : Addr) :
    (s.writeData a v).readCode c =
      if s.arch = .vonNeumann ∧ c = zext16 a then v else s.readCode c := by
  unfold State.readCode State.writeData
  cases s.arch
  · simp
  · simp [readCell_writeCell, BitVec.toNat_inj]

/-- The two memories stay canonical over a store. -/
theorem State.writeData_wf {s : State} (hc : Memory.wf Config.codeSize s.code)
    (hd : Memory.wf Config.dataSize s.data) (a v : Byte) :
    Memory.wf Config.codeSize (s.writeData a v).code ∧
      Memory.wf Config.dataSize (s.writeData a v).data := by
  unfold State.writeData
  split
  · exact ⟨hc, Memory.wf_writeCell hd v (by have := a.isLt; simpa [Config.dataSize] using this)⟩
  · exact ⟨Memory.wf_writeCell hc v (by have := (zext16 a).isLt; simpa [Config.codeSize] using this), hd⟩

end Sys2Proof.Machine
end

