-- ==== Sys2Proof/Laws/Ops.lean ====
section
/-! SUPPORT. One lemma for each shared operation that says what it can do, so that a proof cites it and
does not unfold the operation. -/

namespace Sys2Proof.Machine

/-! ## Addresses near each other -/

theorem byte_add_one_ne (a : Byte) : a + 1 ≠ a := by
  intro h
  have := congrArg BitVec.toNat h
  simp [BitVec.toNat_add] at this
  omega

/-! ## A 16-bit store (spec/00_scope.md R11) -/

@[simp] theorem State.readData16_writeData16_same (s : State) (a : Byte) (w : Addr) :
    (s.writeData16 a w).readData16 a = w := by
  simp [State.readData16, State.writeData16]

theorem State.readData_writeData16 (s : State) (a d : Byte) (w : Addr) :
    (s.writeData16 a w).readData d =
      if d = a + 1 then hi w else if d = a then lo w else s.readData d := by
  simp [State.writeData16, State.readData_writeData]

theorem State.writeData16_wf {s : State} (hc : Memory.wf Config.codeSize s.code)
    (hd : Memory.wf Config.dataSize s.data) (a : Byte) (w : Addr) :
    Memory.wf Config.codeSize (s.writeData16 a w).code ∧
      Memory.wf Config.dataSize (s.writeData16 a w).data := by
  have h := State.writeData_wf hc hd a (lo w)
  exact State.writeData_wf h.1 h.2 (a + 1) (hi w)

/-! ## Pushing (spec/41_stack.md R130, spec/43_control.md R175) -/

theorem State.readData_pushByte (s : State) (v d : Byte) :
    (s.pushByte v).readData d = if d = s.sp - 1 then v else s.readData d := by
  simp [State.pushByte, State.readData_writeData]

/-- Code memory after a push: under `arch = VonNeumann` the cell pushed to is a code cell. -/
theorem State.readCode_pushByte (s : State) (v : Byte) (c : Addr) :
    (s.pushByte v).readCode c =
      if s.arch = .vonNeumann ∧ c = zext16 (s.sp - 1) then v else s.readCode c :=
  State.readCode_writeData (s.setSp (s.sp - 1)) (s.sp - 1) v c

theorem State.readData_pushWord (s : State) (w : Addr) (d : Byte) :
    (s.pushWord w).readData d =
      if d = s.sp - 2 + 1 then hi w else if d = s.sp - 2 then lo w else s.readData d := by
  simp [State.pushWord, State.readData_writeData16]

theorem State.pushByte_wf {s : State} (hc : Memory.wf Config.codeSize s.code)
    (hd : Memory.wf Config.dataSize s.data) (v : Byte) :
    Memory.wf Config.codeSize (s.pushByte v).code ∧
      Memory.wf Config.dataSize (s.pushByte v).data :=
  State.writeData_wf (s := s.setSp (s.sp - 1)) hc hd _ v

theorem State.pushWord_wf {s : State} (hc : Memory.wf Config.codeSize s.code)
    (hd : Memory.wf Config.dataSize s.data) (w : Addr) :
    Memory.wf Config.codeSize (s.pushWord w).code ∧
      Memory.wf Config.dataSize (s.pushWord w).data :=
  State.writeData16_wf (s := s.setSp (s.sp - 2)) hc hd _ w

/-! ## The vector table is out of reach of every store (spec/60_exceptions.md R211) -/

/-- A code address at 0x0100 or above is no data cell under either `arch`, so a store leaves it. -/
theorem State.readCode_writeData_high (s : State) (a v : Byte) {c : Addr} (h : 256 ≤ c.toNat) :
    (s.writeData a v).readCode c = s.readCode c := by
  have hne : c ≠ zext16 a := by
    intro he
    have := congrArg BitVec.toNat he
    rw [zext16_toNat] at this
    have := a.isLt
    omega
  simp [State.readCode_writeData, hne]

theorem State.readCode_pushByte_high (s : State) (v : Byte) {c : Addr} (h : 256 ≤ c.toNat) :
    (s.pushByte v).readCode c = s.readCode c := by
  simp [State.pushByte, State.readCode_writeData_high _ _ _ h]

theorem State.readCode_pushWord_high (s : State) (w : Addr) {c : Addr} (h : 256 ≤ c.toNat) :
    (s.pushWord w).readCode c = s.readCode c := by
  simp [State.pushWord, State.writeData16, State.readCode_writeData_high _ _ _ h]

theorem vectorAddress_toNat (v : BitVec 3) : (vectorAddress v).toNat = 0xFFE0 + 4 * v.toNat := by
  have := v.isLt
  have hb : (0xFFE0 : Addr).toNat = 0xFFE0 := rfl
  simp only [vectorAddress, BitVec.toNat_add, BitVec.toNat_ofNat, hb]
  omega

theorem vectorAddress_add_toNat (v : BitVec 3) (k : Nat) (hk : k < 4) :
    (vectorAddress v + BitVec.ofNat 16 k).toNat = 0xFFE0 + 4 * v.toNat + k := by
  have := v.isLt
  rw [BitVec.toNat_add, vectorAddress_toNat, BitVec.toNat_ofNat]
  omega

/-! ## Entering an interrupt (spec/60_exceptions.md R215, R216) -/

section Entry

variable (v : BitVec 3) (ret : Addr) (s : State)

@[simp] theorem enterInterrupt_regs : (enterInterrupt v ret s).regs = s.regs := by simp [enterInterrupt]
@[simp] theorem enterInterrupt_clock : (enterInterrupt v ret s).clock = s.clock := by simp [enterInterrupt]
@[simp] theorem enterInterrupt_arch : (enterInterrupt v ret s).arch = s.arch := by simp [enterInterrupt]
@[simp] theorem enterInterrupt_ldcHigh : (enterInterrupt v ret s).ldcHigh = s.ldcHigh := by
  simp [enterInterrupt]
@[simp] theorem enterInterrupt_inputs : (enterInterrupt v ret s).inputs = s.inputs := by
  simp [enterInterrupt]
@[simp] theorem enterInterrupt_boundary : (enterInterrupt v ret s).boundary = s.boundary := by
  simp [enterInterrupt]

@[simp] theorem enterInterrupt_sp : (enterInterrupt v ret s).sp = s.sp - 3 := by
  have h : (s.sp - 2#8) - 1#8 = s.sp - 3#8 := by bv_omega
  simpa [enterInterrupt] using h

/-- PC comes from bytes 0 and 1 of the vector. -/
@[simp] theorem enterInterrupt_pc : (enterInterrupt v ret s).pc = s.readCode16 (vectorAddress v) := by
  have h0 : 256 ≤ (vectorAddress v).toNat := by rw [vectorAddress_toNat]; omega
  have h1 : 256 ≤ (vectorAddress v + 1).toNat := by
    have := vectorAddress_add_toNat v 1 (by omega)
    rw [show (1 : Addr) = BitVec.ofNat 16 1 from rfl]
    omega
  show concat16 (((s.pushWord ret).pushByte s.ps).readCode (vectorAddress v + 1))
    (((s.pushWord ret).pushByte s.ps).readCode (vectorAddress v)) = _
  rw [State.readCode_pushByte_high _ _ h0, State.readCode_pushWord_high _ _ h0,
    State.readCode_pushByte_high _ _ h1, State.readCode_pushWord_high _ _ h1]
  rfl

/-- PS comes from byte 2 of the vector, all 8 bits. -/
@[simp] theorem enterInterrupt_ps : (enterInterrupt v ret s).ps = s.readCode (vectorAddress v + 2) := by
  have h2 : 256 ≤ (vectorAddress v + 2).toNat := by
    have := vectorAddress_add_toNat v 2 (by omega)
    rw [show (2 : Addr) = BitVec.ofNat 16 2 from rfl]
    omega
  show ((s.pushWord ret).pushByte s.ps).readCode (vectorAddress v + 2) = _
  rw [State.readCode_pushByte_high _ _ h2, State.readCode_pushWord_high _ _ h2]

/-- The frame on the stack: the old PS at SP - 3, the return address at SP - 2 and SP - 1. -/
theorem enterInterrupt_readData (d : Byte) :
    (enterInterrupt v ret s).readData d =
      if d = s.sp - 3 then s.ps
      else if d = s.sp - 1 then hi ret
      else if d = s.sp - 2 then lo ret
      else s.readData d := by
  have h3 : (s.sp - 2#8) - 1#8 = s.sp - 3#8 := by bv_omega
  have h1 : (s.sp - 2#8) + 1#8 = s.sp - 1#8 := by bv_omega
  simp [enterInterrupt, State.readData_pushByte, State.readData_pushWord, h3, h1]

theorem enterInterrupt_wf {s : State} (hc : Memory.wf Config.codeSize s.code)
    (hd : Memory.wf Config.dataSize s.data) :
    Memory.wf Config.codeSize (enterInterrupt v ret s).code ∧
      Memory.wf Config.dataSize (enterInterrupt v ret s).data := by
  have h := State.pushWord_wf hc hd ret
  exact State.pushByte_wf h.1 h.2 s.ps

end Entry

/-! ## Returning from an interrupt (spec/43_control.md R178) -/

section Return

variable (s : State)

@[simp] theorem returnFromInterrupt_ps : (returnFromInterrupt s).ps = s.readData s.sp := rfl
@[simp] theorem returnFromInterrupt_pc : (returnFromInterrupt s).pc = s.readData16 (s.sp + 1) := rfl
@[simp] theorem returnFromInterrupt_regs : (returnFromInterrupt s).regs = s.regs := rfl
@[simp] theorem returnFromInterrupt_clock : (returnFromInterrupt s).clock = s.clock := rfl
@[simp] theorem returnFromInterrupt_code : (returnFromInterrupt s).code = s.code := rfl
@[simp] theorem returnFromInterrupt_data : (returnFromInterrupt s).data = s.data := rfl
@[simp] theorem returnFromInterrupt_arch : (returnFromInterrupt s).arch = s.arch := rfl
@[simp] theorem returnFromInterrupt_ldcHigh : (returnFromInterrupt s).ldcHigh = s.ldcHigh := rfl
@[simp] theorem returnFromInterrupt_inputs : (returnFromInterrupt s).inputs = s.inputs := rfl
@[simp] theorem returnFromInterrupt_boundary : (returnFromInterrupt s).boundary = s.boundary := rfl
@[simp] theorem returnFromInterrupt_readData (a : Byte) :
    (returnFromInterrupt s).readData a = s.readData a := rfl
@[simp] theorem returnFromInterrupt_readCode (c : Addr) :
    (returnFromInterrupt s).readCode c = s.readCode c := rfl

@[simp] theorem returnFromInterrupt_sp : (returnFromInterrupt s).sp = s.sp + 3 := by
  show s.sp + 1#8 + 2#8 = s.sp + 3#8
  bv_omega

end Return

/-! ## Branching (spec/43_control.md R170) -/

/-- PC after a branch: the target if the condition holds, else the next instruction. -/
theorem branch_pc (c : Cond) (off : Byte) (s : State) :
    (branch c off s).pc =
      if condHolds c s.ps then s.pc + 2 + sext16 off else s.pc + 2 := by
  unfold branch
  split <;> simp_all [branchTarget]

/-- A branch is a change of PC and of nothing else. -/
theorem branch_eq_setPc (c : Cond) (off : Byte) (s : State) :
    branch c off s = s.setPc (branch c off s).pc := by
  unfold branch
  dsimp only
  split <;> rfl

end Sys2Proof.Machine
end

