-- ==== Sys2Proof/Laws/Macros.lean ====
section
/-! SUPPORT. What a run of several instructions does, the stack bytes a macro may use, and the relations of a
macro's effect where nothing is stored. -/

namespace Sys2Proof.Machine

/-! ## Running instructions in sequence -/

@[simp] theorem execAll_nil (s : State) : execAll [] s = .next s := rfl

theorem execAll_cons {i : Instr} {s t : State} (h : exec i s = .next t) (rest : List Instr) :
    execAll (i :: rest) s = execAll rest t := by
  simp [execAll, h]

/-! ## The stack bytes below SP -/

theorem mem_stackBelow {depth : Nat} {s : State} {a : Byte} :
    a ∈ stackBelow depth s ↔ ∃ k < depth, a = s.sp - BitVec.ofNat 8 (k + 1) := by
  simp [stackBelow, stackAddressBelow, eq_comm]

/-! ## Frames and flags -/

/-- States with equal memories and the same `arch` agree on every byte. -/
theorem memoryKept_of_eq {s t : State} (hc : t.code = s.code) (hd : t.data = s.data)
    (ha : t.arch = s.arch) (stored : List Byte) : MemoryKept stored s t :=
  ⟨fun a _ => by unfold State.readData; rw [hc, hd, ha], fun c _ => by unfold State.readCode; rw [hc]⟩

/-- What `setFlags` makes of PS, in the terms of the statements. -/
theorem flagsAre_setFlags {s t : State} {x : Alu} (h : t.ps = setFlags s.ps x.c x.v x.res) :
    FlagsAre x.c x.v (x.res == 0) (x.res.getLsbD 7) s t := by
  refine ⟨?_, ?_, ?_, ?_, fun k hk => ?_⟩ <;> rw [h]
  · exact flagC_setFlags ..
  · exact flagV_setFlags ..
  · exact flagZ_setFlags ..
  · exact flagN_setFlags ..
  · exact getLsbD_setFlags_high _ _ _ _ hk

/-- A one-byte arithmetic instruction that writes `rn` changes no other register. -/
theorem regsKept_putResult (s : State) (n : Nat) (rn : Reg) (x : Alu) :
    RegsKept [rn] s ((s.advance n).putResult rn x) := by
  intro r hr
  have : r ≠ rn := by simpa using hr
  simp [this]

end Sys2Proof.Machine
end

