-- ==== Sys2Proof/Laws/Step.lean ====
section
/-! SUPPORT. What `exec` and `step` can answer, said once. -/

namespace Sys2Proof.Machine

/-! ## The events of a boundary (spec/60_exceptions.md R219) -/

theorem boundaryEvent_reset {s : State} {img : ResetImage} (h : s.input.reset = some img) :
    boundaryEvent s = .reset img := by
  simp [boundaryEvent, h]

theorem boundaryEvent_halted {s : State} (h : s.input.reset = none) (hc : s.clock = .halted) :
    boundaryEvent s = .halted := by
  simp [boundaryEvent, h, hc]

theorem boundaryEvent_interrupt {s : State} (h : s.input.reset = none) (hc : s.clock ≠ .halted)
    (ha : s.interruptAccepted = true) : boundaryEvent s = .interrupt s.input.irqVector := by
  cases hk : s.clock <;> simp_all [boundaryEvent]

theorem boundaryEvent_waiting {s : State} (h : s.input.reset = none) (hc : s.clock = .waiting)
    (ha : s.interruptAccepted = false) : boundaryEvent s = .waiting := by
  simp [boundaryEvent, h, hc, ha]

theorem boundaryEvent_instruction {s : State} (h : s.input.reset = none) (hc : s.clock = .running)
    (ha : s.interruptAccepted = false) : boundaryEvent s = .instruction := by
  simp [boundaryEvent, h, hc, ha]

/-! ## Inversion of a step -/

/-- If a step answers a next state, one of the five events of R219 happened, and the next state is that
event's. -/
theorem step_next_cases {s t : State} (h : step s = .next t) :
    (∃ img, boundaryEvent s = .reset img ∧ t = (applyReset img s).tick) ∨
    ((boundaryEvent s = .halted ∨ boundaryEvent s = .waiting) ∧ t = s.tick) ∨
    (∃ v, boundaryEvent s = .interrupt v ∧ t = (takeInterrupt v s).tick) ∨
    (∃ i u, boundaryEvent s = .instruction ∧ fetchInstr s = some i ∧ exec i s = .next u ∧
      t = u.tick) := by
  unfold step at h
  split at h
  · next img he => exact .inl ⟨img, he, by cases h; rfl⟩
  · next he => exact .inr (.inl ⟨.inl he, by cases h; rfl⟩)
  · next v he => exact .inr (.inr (.inl ⟨v, he, by cases h; rfl⟩))
  · next he => exact .inr (.inl ⟨.inr he, by cases h; rfl⟩)
  · next he =>
    split at h
    · next i hf =>
      cases hx : exec i s with
      | next u =>
        rw [hx] at h
        exact .inr (.inr (.inr ⟨i, u, he, hf, hx, by cases h; rfl⟩))
      | fault r => rw [hx] at h; cases h
      | refused r => rw [hx] at h; cases h
    · cases h

/-! ## The fetch agrees with the decoder -/

/-- The instruction fetched is the one the decoder reads from the three bytes at PC. -/
theorem fetchInstr_eq_decode (s : State) :
    fetchInstr s =
      match decode [s.readCode s.pc, s.readCode (s.pc + 1), s.readCode (s.pc + 2)] with
      | .instr i _ => some i
      | _ => none := by
  have h : s.pc + 1 + 1 = s.pc + 2 := by bv_omega
  unfold fetchInstr decode
  split <;> simp_all [State.readCode16]

end Sys2Proof.Machine
end

