-- ==== Sys2Proof/Tests/Slice0.lean ====
section
/-! SUPPORT. The model's own tests. Expected values come from spec/: words from the encodings of
30_encoding.md, steps from the vectors V1 to V67 and the examples S1 to S17 of 95_test_vectors.md. At the end
stands, for each statement with hypotheses, a witness that meets them. -/

namespace Sys2Proof.Tests

open Sys2Proof.Machine Sys2Proof.Asm

/-! ## Well-formedness (R98; R86 for a branch operand) -/

theorem test_wellformed_every_field_value : WellFormed (.ldi .r3 0xFF) = true := by decide
theorem test_wellformed_branch_operand_in_reach :
    branchInReach 0x0200 0x0281 = true ∧ branchInReach 0x0200 0x0182 = true := by decide
theorem test_wellformed_refuses_branch_too_far_forward : branchInReach 0x0200 0x0282 = false := by decide
theorem test_wellformed_refuses_branch_too_far_back : branchInReach 0x0200 0x0181 = false := by decide
theorem test_wellformed_refuses_branch_across_the_wrap : branchInReach 0xFFF8 0x000A = false := by decide

/-! ## Decoding: every constructor, its word written out from R81 and R88 -/

theorem test_decode_rr_arithmetic :
    decode [0b00000001] = .instr (.move .r0 .r1) [] ∧ decode [0b00011011] = .instr (.add .r2 .r3) [] ∧
    decode [0b00100100] = .instr (.addc .r1 .r0) [] ∧ decode [0b00111110] = .instr (.sub .r3 .r2) [] ∧
    decode [0b01001001] = .instr (.and .r2 .r1) [] ∧ decode [0b01010110] = .instr (.or .r1 .r2) [] ∧
    decode [0b01101100] = .instr (.xor .r3 .r0) [] ∧ decode [0b01111101] = .instr (.cmp .r3 .r1) [] := by
  decide

theorem test_decode_r_arithmetic :
    decode [0b10000011] = .instr (.not .r3) [] ∧ decode [0b10000100] = .instr (.neg .r0) [] ∧
    decode [0b10001010] = .instr (.dec .r2) [] ∧ decode [0b10001111] = .instr (.inc .r3) [] ∧
    decode [0b10010001] = .instr (.shr .r1) [] ∧ decode [0b10010110] = .instr (.shla .r2) [] ∧
    decode [0b10011000] = .instr (.shra .r0) [] ∧ decode [0b10011111] = .instr (.rol .r3) [] := by
  decide

/-- S1, S2, S3 of the manual, and `ldc`. -/
theorem test_decode_memory_access :
    decode [0b11010001, 0b01101110] = .instr (.ldi .r1 0x6E) [] ∧
    decode [0b10110011] = .instr (.ld .r0 .r3) [] ∧ decode [0b10100100] = .instr (.st .r1 .r0) [] ∧
    decode [0b11111001] = .instr (.ldc .r2 .r1) [] := by
  decide

/-- S4, S5 of the manual, and the other stack instructions. -/
theorem test_decode_stack :
    decode [0b11000010] = .instr (.push .r2) [] ∧ decode [0b11000111] = .instr (.pop .r3) [] ∧
    decode [0b11001001, 0b00000010] = .instr (.ldsa .r1 0x02) [] ∧
    decode [0b11001100, 0b11111100] = .instr (.addsp 0xFC) [] ∧
    decode [0b11001101, 0b11110000] = .instr (.setsp 0xF0) [] ∧
    decode [0b11001110] = .instr .pushall [] ∧ decode [0b11001111] = .instr .popall [] := by
  decide

theorem test_decode_control_and_clock :
    decode [0b11010100] = .instr .halt [] ∧ decode [0b11010101] = .instr .wait [] ∧
    decode [0b11010110, 0b00000000, 0b00000010] = .instr (.jsr 0x0200) [] ∧
    decode [0b11010111] = .instr .rts [] ∧ decode [0b11011000] = .instr .ioi [] ∧
    decode [0b11011001] = .instr .rti [] ∧ decode [0b11011010] = .instr .crc [] ∧
    decode [0b11011101, 0b00110111, 0b00010011] = .instr (.jmp 0x1337) [] := by
  decide

theorem test_decode_branches :
    decode [0b11100000, 0x05] = .instr (.beq 0x05) [] ∧ decode [0b11100001, 0x05] = .instr (.bne 0x05) [] ∧
    decode [0b11100010, 0x05] = .instr (.bhs 0x05) [] ∧ decode [0b11100011, 0x05] = .instr (.blo 0x05) [] ∧
    decode [0b11100100, 0x05] = .instr (.bmi 0x05) [] ∧ decode [0b11100101, 0x05] = .instr (.bpl 0x05) [] ∧
    decode [0b11100110, 0x05] = .instr (.bvs 0x05) [] ∧ decode [0b11100111, 0x05] = .instr (.bvc 0x05) [] ∧
    decode [0b11101000, 0x05] = .instr (.bhi 0x05) [] ∧ decode [0b11101001, 0x05] = .instr (.bls 0x05) [] ∧
    decode [0b11101010, 0x05] = .instr (.bge 0x05) [] ∧ decode [0b11101011, 0x05] = .instr (.blt 0x05) [] ∧
    decode [0b11101100, 0x05] = .instr (.bgt 0x05) [] ∧ decode [0b11101101, 0x05] = .instr (.ble 0x05) [] ∧
    decode [0b11101110, 0x05] = .instr (.br 0x05) [] ∧ decode [0b11101111, 0x05] = .instr (.bfalse 0x05) [] := by
  decide

theorem test_decode_refuses_unassigned :
    decode [0xDB] = .unassigned 0xDB ∧ decode [0xDC] = .unassigned 0xDC ∧
    decode [0xDE, 0x00] = .unassigned 0xDE ∧ decode [0xDF] = .unassigned 0xDF := by decide

theorem test_decode_refuses_short_input :
    decode [] = .truncated ∧ decode [0xD1] = .truncated ∧ decode [0xDD, 0x37] = .truncated := by decide

/-- The words of opcode_table.json: byte 0 is bits 7:0. Bits above `nbits` are 0. -/
theorem test_decode_table_word :
    decodeTableWord 16 0x6ED1 = some (.ldi .r1 0x6E) ∧ decodeTableWord 24 0x1337DD = some (.jmp 0x1337) ∧
    decodeTableWord 8 0x6ED1 = some (.ldi .r1 0x00) ∧ decodeTableWord 8 0xDB = none := by decide

/-! ## One step -/

/-- What the outside presents at a boundary with no reset and no request. -/
def quiet : BoundaryInput := { reset := none, irqReq := false, irqVector := 0 }

/-- The reset state with PC at an address, a program there, and no request at this boundary. -/
def start (a : Addr) (program : List Byte) : State :=
  { (State.reset.setPc a).placeProgram a program with inputs := [quiet] }

/-- What one step leaves, as far as `f` looks; `none` if the step does not go on. -/
def result {α : Type} (f : State → α) (s : State) : Option α :=
  match step s with
  | .next t => some (f t)
  | .fault _ => none
  | .refused _ => none

/-- A state with a request of vector `v` at this boundary. -/
def requested (v : BitVec 3) (s : State) : State :=
  { s with inputs := [{ reset := none, irqReq := true, irqVector := v }] }

theorem test_ldi_v2 : result (fun t => (t.reg .r3, t.ps, t.pc))
    (((start 0x0100 [0xD3, 0x00]).setReg .r3 0x55).setPs 0x0D) = some (0x00, 0x0D, 0x0102) := by decide
theorem test_ldi_v3_pc_wraps : result (fun t => (t.reg .r0, t.pc)) (start 0xFFFE [0xD0, 0xFF]) =
    some (0xFF, 0x0000) := by decide
theorem test_ld_v4 : result (fun t => (t.reg .r3, t.pc))
    (((start 0x0100 [0xB3]).setReg .r0 0x79).writeData 0x79 0xA5) = some (0xA5, 0x0101) := by decide
theorem test_ld_v5_same_register : result (fun t => t.reg .r0)
    (((start 0x0100 [0xB0]).setReg .r0 0x10).writeData 0x10 0x20) = some 0x20 := by decide
theorem test_ldc_v9_reads_code : result (fun t => t.reg .r0)
    ((((start 0x0100 [0xFC]).setReg .r3 0xFF).placeCode 0x00FF 0x77).writeData 0xFF 0x11) =
    some 0x77 := by decide
theorem test_st_v10 : result (fun t => (t.readData 0x06, t.reg .r0, t.reg .r1))
    (((start 0x0100 [0xA4]).setReg .r1 0x06).setReg .r0 0x3C) = some (0x3C, 0x3C, 0x06) := by decide
theorem test_st_v11_same_register : result (fun t => t.readData 0x42)
    ((start 0x0100 [0xA5]).setReg .r1 0x42) = some 0x42 := by decide

theorem test_push_v13_wraps : result (fun t => (t.sp, t.readData 0xFF))
    ((start 0x0100 [0xC2]).setReg .r2 0x5A) = some (0xFF, 0x5A) := by decide
theorem test_pop_v15_wraps : result (fun t => (t.reg .r3, t.sp))
    (((start 0x0100 [0xC7]).setSp 0xFF).writeData 0xFF 0x5A) = some (0x5A, 0x00) := by decide
theorem test_ldsa_v18_wraps : result (fun t => (t.reg .r0, t.sp, t.pc))
    ((start 0x0100 [0xC8, 0x03]).setSp 0xFF) = some (0x02, 0xFF, 0x0102) := by decide
theorem test_addsp_v22_wraps : result (fun t => t.sp) ((start 0x0100 [0xCC, 0x80]).setSp 0xC0) =
    some 0x40 := by decide
theorem test_setsp_v23 : result (fun t => t.sp) ((start 0x0100 [0xCD, 0xF0]).setSp 0x12) =
    some 0xF0 := by decide
theorem test_pushall_v26_wraps :
    result (fun t => (t.sp, t.readData 0x01, t.readData 0x00, t.readData 0xFF, t.readData 0xFE))
    { (start 0x0100 [0xCE]).setSp 0x02 with regs := { r0 := 0xA0, r1 := 0xA1, r2 := 0xA2, r3 := 0xA3 } } =
    some (0xFE, 0xA3, 0xA2, 0xA1, 0xA0) := by decide
theorem test_popall_v28_wraps : result (fun t => (t.regs, t.sp))
    { (start 0x0100 [0xCF]).setSp 0xFE with data := [(0x00, 3), (0x01, 4), (0xFE, 1), (0xFF, 2)] } =
    some ({ r0 := 1, r1 := 2, r2 := 3, r3 := 4 }, 0x02) := by decide

/-- A one-byte instruction at 0x0100 with `a` in r0 and `b` in r1, and what it leaves in r0, r1 and PS. -/
def alu (op a b ps : Byte) : Option (Byte × Byte × Byte) :=
  result (fun t => (t.reg .r0, t.reg .r1, t.ps))
    ((((start 0x0100 [op]).setReg .r0 a).setReg .r1 b).setPs ps)

/- PS after: C is 0x08, V is 0x04, Z is 0x02, N is 0x01 (R29); the start has I and a reserved bit set. -/
theorem test_move_r0_r1 : alu 0x01 0x80 0x00 0xAF = some (0x80, 0x80, 0xA1) := by decide
theorem test_add_overflow : alu 0x11 0x40 0x60 0xA0 = some (0x40, 0xA0, 0xA5) := by decide
theorem test_add_carry_and_overflow : alu 0x11 0x80 0x80 0xA0 = some (0x80, 0x00, 0xAE) := by decide
theorem test_addc_carry_in : alu 0x21 0x7F 0x80 0xA8 = some (0x7F, 0x00, 0xAA) := by decide
theorem test_addc_no_carry_in : alu 0x21 0x80 0x80 0xA0 = some (0x80, 0x00, 0xAE) := by decide
theorem test_sub_direction : alu 0x31 0x05 0x03 0xA0 = some (0x05, 0x02, 0xA8) := by decide
theorem test_sub_overflow : alu 0x31 0x7F 0xFF 0xA0 = some (0x7F, 0x80, 0xA5) := by decide
theorem test_cmp_borrow : alu 0x71 0x03 0x05 0xA0 = some (0x03, 0x05, 0xA1) := by decide
theorem test_cmp_equal : alu 0x70 0x05 0x03 0xA0 = some (0x05, 0x03, 0xAA) := by decide
theorem test_neg_minimum : alu 0x84 0x80 0x00 0xA0 = some (0x80, 0x00, 0xA5) := by decide
theorem test_neg_zero : alu 0x84 0x00 0x00 0xA0 = some (0x00, 0x00, 0xAA) := by decide
theorem test_inc_wraps : alu 0x8C 0xFF 0x00 0xA0 = some (0x00, 0x00, 0xAA) := by decide
theorem test_inc_overflow : alu 0x8C 0x7F 0x00 0xA0 = some (0x80, 0x00, 0xA5) := by decide
theorem test_dec_wraps : alu 0x88 0x00 0x00 0xAF = some (0xFF, 0x00, 0xA1) := by decide
theorem test_dec_overflow : alu 0x88 0x80 0x00 0xA0 = some (0x7F, 0x00, 0xAC) := by decide
theorem test_and : alu 0x41 0xF0 0x3C 0xAF = some (0xF0, 0x30, 0xA0) := by decide
theorem test_or : alu 0x51 0xF0 0x3C 0xAF = some (0xF0, 0xFC, 0xA1) := by decide
theorem test_xor : alu 0x61 0xFF 0xFF 0xAF = some (0xFF, 0x00, 0xA2) := by decide
theorem test_not : alu 0x80 0x0F 0x00 0xAF = some (0xF0, 0x00, 0xA1) := by decide
theorem test_shra_keeps_sign : alu 0x98 0x81 0x00 0xA0 = some (0xC0, 0x00, 0xA9) := by decide
theorem test_shla_overflow : alu 0x94 0x80 0x00 0xA0 = some (0x00, 0x00, 0xAE) := by decide
theorem test_shr_carry_in : alu 0x90 0x7F 0x00 0xA8 = some (0xBF, 0x00, 0xA9) := by decide
theorem test_shr_no_carry_in : alu 0x90 0x80 0x00 0xA7 = some (0x40, 0x00, 0xA0) := by decide
theorem test_rol_wraps_bit : alu 0x9C 0x81 0x00 0xAF = some (0x03, 0x00, 0xA8) := by decide

/-- PC after a branch at `a` with the flags `ps`. -/
def branched (a : Addr) (op off ps : Byte) : Option Addr :=
  result (fun t => t.pc) ((start a [op, off]).setPs ps)

theorem test_beq_v35_v36 : branched 0x0000 0xE0 0x05 0x02 = some 0x0007 ∧
    branched 0x0000 0xE0 0x05 0x00 = some 0x0002 := by decide
theorem test_br_v37_v40 : branched 0x0200 0xEE 0xFE 0x00 = some 0x0200 ∧
    branched 0x0200 0xEE 0x80 0x00 = some 0x0182 := by decide
theorem test_br_v41_v42_wraps : branched 0x0010 0xEE 0x80 0x00 = some 0xFF92 ∧
    branched 0xFFF8 0xEE 0x10 0x00 = some 0x000A := by decide
theorem test_bfalse_v43 : branched 0x0200 0xEF 0x55 0x0F = some 0x0202 := by decide
theorem test_bhi_v44 : branched 0x0200 0xE8 0x04 0x0A = some 0x0202 := by decide
theorem test_ble_v45 : branched 0x0200 0xED 0x04 0x04 = some 0x0206 := by decide

/-- Which of the sixteen conditions are taken, in the order of their codes 0 to F. -/
def taken (ps : Byte) : List Bool :=
  [Cond.eq, .ne, .hs, .lo, .mi, .pl, .vs, .vc, .hi, .ls, .ge, .lt, .gt, .le, .always, .never].map
    fun c => condHolds c ps

/-- Rows of the truth table of 95_test_vectors.md §2.4; between them each test comes out both ways. -/
theorem test_conditions_flags_clear : taken 0x00 =
    [false, true, false, true, false, true, false, true, false, true, true, false, true, false, true, false] := by
  decide
theorem test_conditions_negative : taken 0x09 =
    [false, true, true, false, true, false, false, true, true, false, false, true, false, true, true, false] := by
  decide
theorem test_conditions_flags_set : taken 0x0F =
    [true, false, true, false, true, false, true, false, false, true, true, false, false, true, true, false] := by
  decide

theorem test_jmp_v46 : result (fun t => (t.pc, t.sp)) (start 0x0004 [0xDD, 0x37, 0x13]) =
    some (0x1337, 0x00) := by decide
theorem test_jsr_v49_wraps : result (fun t => (t.sp, t.readData 0xFF, t.readData 0x00, t.pc))
    ((start 0x12FD [0xD6, 0xCD, 0xAB]).setSp 0x01) = some (0xFF, 0x00, 0x13, 0xABCD) := by decide
theorem test_rts_v51_wraps : result (fun t => (t.sp, t.pc))
    { (start 0x0203 [0xD7]).setSp 0xFF with data := [(0x00, 0x12), (0xFF, 0x34)] } =
    some (0x01, 0x1234) := by decide
theorem test_crc_v56 : result (fun t => (t.readData 0xFE, t.readData 0xFF, t.pc, t.sp))
    { (start 0x0040 [0xDA]).setSp 0xFE with data := [(0xFF, 0x02)] } =
    some (0x41, 0x00, 0x0200, 0xFE) := by decide
theorem test_rti_v55_wraps : result (fun t => (t.sp, t.ps, t.pc))
    { (start 0x0300 [0xD9]).setSp 0xFE with data := [(0x00, 0xAB), (0xFE, 0x7F), (0xFF, 0xCD)] } =
    some (0x01, 0x7F, 0xABCD) := by decide

/-- V53: `ioi` with I = 0 and vector 7; all 8 bits of the vector byte go to PS. -/
theorem test_ioi_v53 : result (fun t => (t.sp, t.ps, t.pc, t.readData 0xFD, t.readData 0xFE, t.readData 0xFF))
    (requested 7 ((start 0x0020 [0xD8]).placeProgram 0xFFFC [0x34, 0x12, 0xF5])) =
    some (0xFD, 0xF5, 0x1234, 0x00, 0x21, 0x00) := by decide

theorem test_halt_v57 : result (fun t => (t.pc, t.clock)) ((start 0x0008 [0xD4]).setPs 0x80) =
    some (0x0008, .halted) := by decide
theorem test_wait_v58 : result (fun t => (t.pc, t.clock)) ((start 0x0005 [0xD5]).setPs 0x80) =
    some (0x0005, .waiting) := by decide

/-! ## Events of a boundary (V59 to V65, R219) -/

/-- Running at 0x0011 with vector 2 at 0xFFE8. -/
def interrupted : State :=
  requested 2 (((start 0x0011 [0x8C]).placeProgram 0xFFE8 [0x00, 0x02, 0x80]).setPs 0x85)

theorem test_interrupt_v59 :
    result (fun t => (t.pc, t.ps, t.sp, t.readData 0xFD, t.readData 0xFE, t.readData 0xFF, t.reg .r0))
    interrupted = some (0x0200, 0x80, 0xFD, 0x85, 0x11, 0x00, 0x00) := by decide
theorem test_masked_v60 : result (fun t => (t.pc, t.ps, t.reg .r0)) (interrupted.setPs 0x05) =
    some (0x0012, 0x00, 0x01) := by decide

/-- Waiting at 0x0005 with I = 1 and vector 0 at 0xFFE0. -/
def waiting : State :=
  (((start 0x0005 [0xD5]).placeProgram 0xFFE0 [0x00, 0x01, 0x00]).setPs 0x80).setClock .waiting

theorem test_wait_ended_v61 : result (fun t => (t.pc, t.clock, t.readData 0xFE, t.readData 0xFD))
    (requested 0 waiting) = some (0x0100, .running, 0x05, 0x80) := by decide
theorem test_wait_masked_v62 : result (fun t => (t.pc, t.clock, t.sp))
    (requested 0 (waiting.setPs 0x00)) = some (0x0005, .waiting, 0x00) := by decide
theorem test_wait_goes_on_v63 : result (fun t => (t.pc, t.clock)) waiting = some (0x0005, .waiting) := by
  decide

/-- Halted at 0x0008 with I = 1. -/
def haltedState : State := ((start 0x0008 [0xD4]).setPs 0x80).setClock .halted

theorem test_halted_v64 : result (fun t => (t.pc, t.clock, t.sp)) (requested 0 haltedState) =
    some (0x0008, .halted, 0x00) := by decide
theorem test_frame_wraps_v65 : result (fun t => (t.sp, t.readData 0xFF, t.readData 0x00, t.readData 0xFE))
    (requested 2 (interrupted.setSp 0x01)) = some (0xFE, 0x11, 0x00, 0x85) := by decide

/-- A reset at this boundary, with a request beside it. -/
def resetting (s : State) : State :=
  { s with inputs := [{ reset := some { code := [(5, 1), (3, 7), (5, 2)], data := [(9, 8)] },
                        irqReq := true, irqVector := 0 }] }

theorem test_reset_ends_halt :
    result (fun t => (t.pc, t.clock, t.ps)) (resetting haltedState) = some (0x0000, .running, 0x00) := by
  decide
theorem test_reset_loads_images : result (fun t => t.code) (resetting haltedState) = some [(3, 7), (5, 2)] ∧
    result (fun t => t.data) (resetting haltedState) = some [(9, 8)] := by decide

/-- V66: a fault of the model, PC one further. -/
theorem test_unassigned_v66 : step (start 0x0030 [0xDB]) = .fault (.illegalInstruction 0xDB 0x0031) := rfl

theorem test_interrupt_before_fault : result (fun t => t.pc) (requested 2
    ((interrupted.placeCode 0x0011 0xDF))) = some 0x0200 := by decide

/-! ## Placing an instruction -/

theorem test_with_fetch_word : result (fun t => (t.reg .r1, t.pc)) (State.reset.withFetchWord 16 0x6ED1) =
    some (0x6E, 0x0002) := by decide
theorem test_with_fetch_word_after_halt : result (fun t => (t.pc, t.clock))
    ((requested 0 haltedState).withFetchWord 24 0x1337DD) = some (0x1337, .running) := by decide

/-! ## `arch = VonNeumann` (R38, R62) and the bus (R39, R55) -/

/-- `st r1, r0` at 0x0100 in a system with one memory. -/
def shared : State :=
  { ((start 0x0100 [0xA4]).setReg .r1 0x06).setReg .r0 0x3C with arch := .vonNeumann }

theorem test_shared_store_is_fetched : result (fun t => (t.readCode 0x0006, t.readData 0x06)) shared =
    some (0x3C, 0x3C) := by decide
theorem test_bus_of_st : boundaryAccesses shared = [codeRead 0x0100, dataWrite 0x06] ∧
    (boundaryAccesses shared).map dataIns = [true, false] := by decide
theorem test_bus_of_interrupt : writtenAddresses (boundaryAccesses interrupted) = [0xFE, 0xFF, 0xFD] := by
  decide

/-! ## The assembler (S11 with the bytes of program P1; R104) and the macros (§2.7) -/

theorem test_line_mark_is_decimal :
    (parseLineMark (lex "-| 16 fp-YQ==\n")).isSome = true ∧
    (parseLineMark (lex "-| 0x10 fp-YQ==\n")).isSome = false := by decide +kernel
theorem test_lex_number_kinds : lex "10 0b10 0x10 'a'" =
    [.number .decimal 10, .number .binary 2, .number .hex 16, .character "a"] := by decide +kernel

theorem test_assemble_goto_short : assemble
    "asect 0x00\ngoto z, near_code\ninc r0\nnear_code: ldi r0, 1\nend\n" =
    .ok [(0, 0xE0), (1, 0x01), (2, 0x8C), (3, 0xD0), (4, 0x01)] := by decide +kernel
theorem test_assemble_goto_long : assemble
    "asect 0x00\ngoto hs, far_code\nasect 0x1337\nfar_code: ldi r0, high(far_code)\nend\n" =
    .ok [(0, 0xE3), (1, 0x03), (2, 0xDD), (3, 0x37), (4, 0x13), (0x1337, 0xD0), (0x1338, 0x13)] := by
  decide +kernel
/-- The first `goto` is long and brings the second within reach: 0x84 - (5 + 2) = 125 (R105). -/
theorem test_assemble_goto_settles : assemble
    "asect 0\ngoto r, 0x1000\ngoto z, l\nasect 0x84\nl: inc r0\nend\n" =
    .ok [(0, 0xEF), (1, 0x03), (2, 0xDD), (3, 0x00), (4, 0x10), (5, 0xE0), (6, 0x7D), (0x84, 0x8C)] := by
  decide +kernel
/-- No choice of forms is settled: the first is long exactly when the second is, which is long exactly when
the first is short (log 35). -/
theorem test_assemble_goto_unsettled : assemble
    "asect 0x100\ngoto z, t\ny:\nasect 0x17F\ngoto z, y - 3\nt: inc r0\nend\n" =
    .ok [(0x100, 0xE1), (0x101, 0x03), (0x102, 0xDD), (0x103, 0x84), (0x104, 0x01),
      (0x17F, 0xE1), (0x180, 0x03), (0x181, 0xDD), (0x182, 0x02), (0x183, 0x01), (0x184, 0x8C)] := by
  decide +kernel
theorem test_assemble_branch_too_far :
    assemble "asect 0\nbr 0x1000\nend\n" = .error .jumpTooFar := by decide +kernel

theorem test_shl_macro : result (fun t => (t.reg .r1, t.ps))
    (((start 0x0000 ((shlSequence .r1).flatMap encode)).setReg .r1 0x40).setPs 0x08) =
    some (0x81, 0x05) := by decide

/-! ## A witness for every statement with hypotheses -/

theorem test_witness_encode_inverts_decode :
    decode [0xDD, 0x37, 0x13, 0xFF] = .instr (.jmp 0x1337) [0xFF] := by decide

theorem test_witness_executes : Executes shared (.st .r1 .r0) :=
  ⟨⟨rfl, rfl, .inl rfl⟩, ⟨[0x00, 0x00], by decide⟩⟩

theorem test_witness_step_goes_on : ∃ t, step shared = .next t := ⟨_, rfl⟩

theorem test_witness_takes_interrupt_running : TakesInterrupt interrupted :=
  ⟨rfl, by decide, rfl, rfl⟩
theorem test_witness_takes_interrupt_waiting : TakesInterrupt (requested 0 waiting) :=
  ⟨rfl, by decide, rfl, rfl⟩

theorem test_witness_masked : flagI (interrupted.setPs 0x7F).ps = false := rfl

theorem test_witness_stopped_halted :
    (requested 0 haltedState).input.reset = none ∧ (requested 0 haltedState).clock = .halted := ⟨rfl, rfl⟩
theorem test_witness_stopped_waiting :
    waiting.input.reset = none ∧ waiting.clock = .waiting ∧ waiting.input.irqReq = false ∧
    (waiting.setPs 0x7F).clock = .waiting ∧ flagI (waiting.setPs 0x7F).ps = false :=
  ⟨rfl, rfl, rfl, rfl, rfl⟩

theorem test_witness_reset_harvard : (resetting haltedState).arch = .harvard ∧
    ∃ img, (resetting haltedState).input.reset = some img := ⟨rfl, _, rfl⟩
theorem test_witness_reset_shared : (resetting shared).arch = .vonNeumann ∧
    ∃ img, (resetting shared).input.reset = some img := ⟨rfl, _, rfl⟩

theorem test_witness_canonical : MemoriesCanonical shared ∧ ∃ t, step shared = .next t :=
  ⟨by unfold MemoriesCanonical; decide, _, rfl⟩

theorem test_witness_writes_data_cell : ∃ t, step shared = .next t ∧ shared.input.reset = none ∧
    t.readData 0x06 ≠ shared.readData 0x06 ∧ t.readCode 0x0006 ≠ shared.readCode 0x0006 :=
  ⟨_, rfl, rfl, by decide, by decide⟩

theorem test_witness_writes_register : ∃ t, step (start 0x0100 [0xD1, 0x6E]) = .next t ∧
    (start 0x0100 [0xD1, 0x6E]).input.reset = none ∧
    t.reg .r1 ≠ (start 0x0100 [0xD1, 0x6E]).reg .r1 := ⟨_, rfl, rfl, by decide⟩

theorem test_witness_writes_sp : ∃ t, step (start 0x0100 [0xC2]) = .next t ∧
    (start 0x0100 [0xC2]).input.reset = none ∧ t.sp ≠ (start 0x0100 [0xC2]).sp := ⟨_, rfl, rfl, by decide⟩
theorem test_witness_interrupt_writes_sp : ∃ t, step interrupted = .next t ∧
    interrupted.input.reset = none ∧ t.sp ≠ interrupted.sp := ⟨_, rfl, rfl, by decide⟩

theorem test_witness_writes_status_high : ∃ t, step (start 0x0300 [0xD9] |>.writeData 0x00 0x80) = .next t ∧
    (start 0x0300 [0xD9] |>.writeData 0x00 0x80).input.reset = none ∧
    t.ps.getLsbD 7 ≠ (start 0x0300 [0xD9] |>.writeData 0x00 0x80).ps.getLsbD 7 :=
  ⟨_, rfl, rfl, by decide⟩
theorem test_witness_writes_flags : ∃ t, step (start 0x0100 [0x01]) = .next t ∧
    (start 0x0100 [0x01]).input.reset = none ∧ t.ps ≠ (start 0x0100 [0x01]).ps :=
  ⟨_, rfl, rfl, by decide⟩

theorem test_witness_plain_instruction : Executes shared (.st .r1 .r0) ∧ redirects (.st .r1 .r0) = false ∧
    ∃ t, step shared = .next t := ⟨test_witness_executes, rfl, _, rfl⟩

theorem test_witness_clock_halts : ∃ t, step (start 0x0008 [0xD4]) = .next t ∧
    (start 0x0008 [0xD4]).input.reset = none ∧ t.clock ≠ (start 0x0008 [0xD4]).clock :=
  ⟨_, rfl, rfl, by decide⟩
theorem test_witness_clock_waits : ∃ t, step (start 0x0005 [0xD5]) = .next t ∧
    (start 0x0005 [0xD5]).input.reset = none ∧ t.clock ≠ (start 0x0005 [0xD5]).clock :=
  ⟨_, rfl, rfl, by decide⟩
theorem test_witness_clock_restarts : ∃ t, step (requested 0 waiting) = .next t ∧
    (requested 0 waiting).input.reset = none ∧ t.clock ≠ (requested 0 waiting).clock :=
  ⟨_, rfl, rfl, by decide⟩

theorem test_witness_ended : NoResetListed (requested 0 haltedState) ∧ Ended (requested 0 haltedState) :=
  ⟨by unfold NoResetListed; decide, rfl⟩
theorem test_witness_hung :
    NoResetListed (requested 0 (waiting.setPs 0x7F)) ∧ Hung (requested 0 (waiting.setPs 0x7F)) :=
  ⟨by unfold NoResetListed; decide, rfl, rfl⟩

theorem test_witness_shared_memory : shared.arch = .vonNeumann := rfl

theorem test_witness_compare : (Instr.cmp .r0 .r0 = .cmp .r0 .r0 ∨ Instr.cmp .r0 .r0 = .sub .r0 .r0) ∧
    (Instr.sub .r0 .r3 = .cmp .r0 .r3 ∨ Instr.sub .r0 .r3 = .sub .r0 .r3) := ⟨.inl rfl, .inr rfl⟩

theorem test_witness_negate : (State.reset.setReg .r2 0x80).reg .r2 = 0x80 ∧
    (State.reset.setReg .r2 0x7F).reg .r2 ≠ 0x80 ∧ (State.reset.setReg .r2 0x81).reg .r2 ≠ 0x80 :=
  ⟨rfl, by decide, by decide⟩

theorem test_witness_xor_with_itself : (Reg.r3 : Reg) = .r3 := rfl

theorem test_witness_shift_without_overflow : ∃ t, exec (.shla .r1) (State.reset.setReg .r1 0x3F) = .next t ∧
    flagV t.ps = false := ⟨_, rfl, rfl⟩
theorem test_witness_shift_without_overflow_negative :
    ∃ t, exec (.shla .r1) (State.reset.setReg .r1 0xC0) = .next t ∧ flagV t.ps = false := ⟨_, rfl, rfl⟩

theorem test_witness_branch_operand : branchOffset 0x0200 0x0281 = some 0x7F ∧
    branchOffset 0x0200 0x0182 = some 0x80 ∧ (State.reset.setPc 0x0200).pc = 0x0200 := by decide

theorem test_witness_goto : condHolds .hs (State.reset.setPs 0x08).ps = true ∧
    condHolds .hs State.reset.ps = false := ⟨rfl, rfl⟩

theorem test_witness_stv : (Reg.r1 ≠ Reg.r0) ∧ (0xFE : Byte) ≠ State.reset.sp - 1 ∧
    (0x00 : Byte) ≠ State.reset.sp - 1 := by decide

end Sys2Proof.Tests
end

section
/-! Rules that the statements about single instructions share: the opcode byte as a number, PC past the
instruction, the frame of an instruction that stores nothing, and a data read under `arch = VonNeumann`. -/

namespace Sys2Proof.Machine

/-! ## The opcode byte as a number (spec/30_encoding.md R81) -/

/-- Two bit strings joined, as a number: the left one counts in units of `2 ^ n`. -/
theorem toNat_append_eq_add {m n : Nat} (x : BitVec m) (y : BitVec n) :
    (x ++ y).toNat = x.toNat * 2 ^ n + y.toNat := by
  rw [BitVec.toNat_append, ← Nat.shiftLeft_add_eq_or_of_lt y.isLt, Nat.shiftLeft_eq]

theorem regBits_toNat (r : Reg) : (regBits r).toNat = regNumber r := by cases r <;> rfl

/-- Formats R and RI: the operation in bits 7:2, the register in bits 1:0. -/
theorem byteR_eq_ofNat (op : BitVec 6) (rn : Reg) :
    byteR op rn = BitVec.ofNat 8 (4 * op.toNat + regNumber rn) := by
  have hlt := (byteR op rn).isLt
  have hvalue : (byteR op rn).toNat = op.toNat * 2 ^ 2 + regNumber rn := by
    rw [byteR, toNat_append_eq_add, regBits_toNat]
  apply BitVec.eq_of_toNat_eq
  rw [BitVec.toNat_ofNat]
  omega

/-- Format RR: the operation in bits 7:4, the first register in bits 3:2, the second in bits 1:0. -/
theorem byteRR_eq_ofNat (op : BitVec 4) (rn rm : Reg) :
    byteRR op rn rm = BitVec.ofNat 8 (16 * op.toNat + 4 * regNumber rn + regNumber rm) := by
  have hlt := (byteRR op rn rm).isLt
  have hvalue : (byteRR op rn rm).toNat =
      op.toNat * 2 ^ 4 + (regNumber rn * 2 ^ 2 + regNumber rm) := by
    rw [byteRR, toNat_append_eq_add, toNat_append_eq_add, regBits_toNat, regBits_toNat]
  apply BitVec.eq_of_toNat_eq
  rw [BitVec.toNat_ofNat]
  omega

/-! ## PC past the instruction, and what stays -/

/-- PC of `State.advance`, read as the modular sum of 10_state.md R26. -/
theorem advanced_of_pc_eq {n : Nat} {s t : State} (hpc : t.pc = (s.advance n).pc)
    (hclock : t.clock = s.clock) : Advanced n s t := by
  refine ⟨?_, hclock⟩
  rw [hpc]
  simp

/-- A state with both memories and the outside as before: only its registers are left to say. -/
theorem frame_of_memories_eq {written : List Reg} {s t : State} (hregs : RegsKept written s t)
    (hcode : t.code = s.code) (hdata : t.data = s.data) (houtside : OutsideKept s t)
    (stored : List Byte) : Frame written stored s t :=
  ⟨hregs, memoryKept_of_eq hcode hdata houtside.1 stored, houtside⟩

/-- An instruction of `n` bytes whose effect is one register. -/
theorem frame_advance_setReg (n : Nat) (r : Reg) (v : Byte) (s : State) :
    Frame [r] [] s ((s.advance n).setReg r v) := by
  have hregs : RegsKept [r] s ((s.advance n).setReg r v) := by
    intro q hq
    have hne : q ≠ r := by simpa using hq
    simp [hne]
  exact frame_of_memories_eq hregs rfl rfl ⟨rfl, rfl, rfl, rfl⟩ []

/-! ## One memory for code and data (spec/10_state.md R38) -/

theorem State.readData_of_vonNeumann {s : State} (h : s.arch = .vonNeumann) (a : Byte) :
    s.readData a = s.readCode (zext16 a) := by
  simp [State.readData, State.readCode, h]

end Sys2Proof.Machine
end

section
/-! The loads of spec/40_memory_access.md: `ldi` (R120) and `ld` (R121). -/

namespace Sys2Proof.Proofs

open Sys2Proof.Machine

theorem encode_ldi (rn : Reg) (imm : Byte) :
    encode (.ldi rn imm) = [BitVec.ofNat 8 (0xD0 + regNumber rn), imm] := by
  rw [encode, byteR_eq_ofNat]
  rfl

theorem encode_ld (rn rm : Reg) :
    encode (.ld rn rm) = [BitVec.ofNat 8 (0xB0 + 4 * regNumber rn + regNumber rm)] := by
  rw [encode, byteRR_eq_ofNat]
  rfl

theorem exec_ldi (rn : Reg) (imm : Byte) (s : State) :
    exec (.ldi rn imm) s = .next ((s.advance 2).setReg rn imm) := rfl

/-- Moving PC first changes neither the address nor the cell. -/
theorem exec_ld (rn rm : Reg) (s : State) :
    exec (.ld rn rm) s = .next ((s.advance 1).setReg rm (s.readData (s.reg rn))) := rfl

/-- Settles O25: the constant is the value of the one register written. -/
theorem loadImmediateWritesConstant : Obligations.LoadImmediateWritesConstant := by
  intro rn imm s
  exact ⟨encode_ldi rn imm, _, exec_ldi rn imm s, State.reg_setReg_same .., rfl, rfl,
    advanced_of_pc_eq rfl rfl, frame_advance_setReg 2 rn imm s⟩

/-- Settles O26: the value of the one register written is the cell read in the state before, so
`rn = rm` is no special case; under `arch = VonNeumann` that cell is a code cell. -/
theorem loadDataReadsCell : Obligations.LoadDataReadsCell := by
  intro rn rm s
  have hreg : ((s.advance 1).setReg rm (s.readData (s.reg rn))).reg rm = s.readData (s.reg rn) :=
    State.reg_setReg_same ..
  have hshared (h : s.arch = .vonNeumann) := hreg.trans (State.readData_of_vonNeumann h (s.reg rn))
  exact ⟨encode_ld rn rm, _, exec_ld rn rm s, hreg, hshared, rfl, rfl,
    advanced_of_pc_eq rfl rfl, frame_advance_setReg 1 rm _ s⟩

end Sys2Proof.Proofs
end

section
/-! Rules for instructions with several effects: frames composed one update at a time, and the
pushes and pops of spec/41_stack.md, of one register and of all four. -/

namespace Sys2Proof.Machine

/-! ## Frames composed -/

/-- What two updates in sequence may change is what either may change. -/
theorem Frame.trans {w₁ w₂ : List Reg} {d₁ d₂ : List Byte} {s t u : State}
    (hst : Frame w₁ d₁ s t) (htu : Frame w₂ d₂ t u) : Frame (w₁ ++ w₂) (d₁ ++ d₂) s u := by
  obtain ⟨hregs₁, ⟨hdata₁, hcode₁⟩, harch₁, hldc₁, hinputs₁, hboundary₁⟩ := hst
  obtain ⟨hregs₂, ⟨hdata₂, hcode₂⟩, harch₂, hldc₂, hinputs₂, hboundary₂⟩ := htu
  refine ⟨fun r hr => ?_, ⟨fun a ha => ?_, fun c hc => ?_⟩, harch₂.trans harch₁,
    hldc₂.trans hldc₁, hinputs₂.trans hinputs₁, hboundary₂.trans hboundary₁⟩
  · obtain ⟨hr₁, hr₂⟩ := not_or.mp (mt List.mem_append.mpr hr)
    exact (hregs₂ r hr₂).trans (hregs₁ r hr₁)
  · obtain ⟨ha₁, ha₂⟩ := not_or.mp (mt List.mem_append.mpr ha)
    exact (hdata₂ a ha₂).trans (hdata₁ a ha₁)
  · rw [List.map_append] at hc
    have hc₂ (h : t.arch = .vonNeumann) := fun hmem => hc (harch₁ ▸ h) (List.mem_append_right _ hmem)
    have hc₁ (h : s.arch = .vonNeumann) := fun hmem => hc h (List.mem_append_left _ hmem)
    exact (hcode₂ c hc₂).trans (hcode₁ c hc₁)

theorem frame_advance (n : Nat) (s : State) : Frame [] [] s (s.advance n) :=
  frame_of_memories_eq (fun _ _ => rfl) rfl rfl ⟨rfl, rfl, rfl, rfl⟩ []

theorem frame_setSp (v : Byte) (s : State) : Frame [] [] s (s.setSp v) :=
  frame_of_memories_eq (fun _ _ => rfl) rfl rfl ⟨rfl, rfl, rfl, rfl⟩ []

theorem frame_setReg (r : Reg) (v : Byte) (s : State) : Frame [r] [] s (s.setReg r v) := by
  have hregs : RegsKept [r] s (s.setReg r v) :=
    fun q hq => State.reg_setReg_of_ne s v (List.ne_of_not_mem_cons hq)
  exact frame_of_memories_eq hregs rfl rfl ⟨rfl, rfl, rfl, rfl⟩ []

/-- A store changes the data cell at its address and, under `arch = VonNeumann`, the code cell that this
is (10_state.md R38). -/
theorem frame_writeData (a v : Byte) (s : State) : Frame [] [a] s (s.writeData a v) := by
  refine ⟨fun r _ => State.reg_writeData .., ⟨fun d hd => ?_, fun c hc => ?_⟩, by simp [OutsideKept]⟩
  · exact State.readData_writeData_of_ne s v (List.ne_of_not_mem_cons hd)
  · rw [State.readCode_writeData, if_neg]
    rintro ⟨harch, rfl⟩
    exact hc harch (by simp)

/-! ## Pushing (spec/41_stack.md R130) -/

theorem frame_pushByte (v : Byte) (s : State) : Frame [] [s.sp - 1] s (s.pushByte v) :=
  (frame_setSp (s.sp - 1) s).trans (frame_writeData (s.sp - 1) v _)

theorem State.writeData_setSp (s : State) (b a v : Byte) :
    (s.setSp b).writeData a v = (s.writeData a v).setSp b := by
  unfold State.writeData
  cases h : s.arch <;> simp only [State.setSp_arch, h] <;> rfl

theorem State.writeData_advance (s : State) (n : Nat) (a v : Byte) :
    (s.advance n).writeData a v = (s.writeData a v).advance n := by
  unfold State.writeData
  cases h : s.arch <;> simp only [State.advance_arch, h] <;> rfl

/-- A push as `pushall` does it: the store first, then SP. -/
theorem State.pushByte_eq_setSp_writeData (s : State) (v : Byte) :
    s.pushByte v = (s.writeData (s.sp - 1) v).setSp (s.sp - 1) :=
  State.writeData_setSp ..

theorem State.pushByte_advance (s : State) (n : Nat) (v : Byte) :
    (s.advance n).pushByte v = (s.pushByte v).advance n := by
  rw [State.pushByte_eq_setSp_writeData, State.pushByte_eq_setSp_writeData, State.writeData_advance]
  rfl

/-! ## Popping (spec/41_stack.md R131) -/

/-- A byte popped into a register: what `pop` does after its fetch. -/
def State.popReg (s : State) (r : Reg) : State := (s.setReg r (s.readData s.sp)).setSp (s.sp + 1)

@[simp] theorem State.popReg_sp (s : State) (r : Reg) : (s.popReg r).sp = s.sp + 1 := rfl

@[simp] theorem State.readData_popReg (s : State) (r : Reg) (a : Byte) :
    (s.popReg r).readData a = s.readData a := rfl

theorem State.reg_popReg (s : State) (r q : Reg) :
    (s.popReg r).reg q = if q = r then s.readData s.sp else s.reg q :=
  State.reg_setReg s r q _

theorem frame_popReg (r : Reg) (s : State) : Frame [r] [] s (s.popReg r) :=
  (frame_setReg r _ s).trans (frame_setSp _ _)

/-! ## The stack operands, reached from SP in steps of one modulo 256 (spec/10_state.md R24) -/

theorem sp_sub_one_eq (s : State) : s.sp - 1 = stackAddressBelow s 1 := rfl

theorem stackAddressBelow_sub_one (s : State) (k : Nat) :
    stackAddressBelow s k - 1 = stackAddressBelow s (k + 1) := by
  simp only [stackAddressBelow]
  bv_omega

theorem stackAddressBelow_inj (s : State) {j k : Nat} (hj : j < 256) (hk : k < 256) :
    stackAddressBelow s j = stackAddressBelow s k ↔ j = k := by
  simp only [stackAddressBelow, ← BitVec.toNat_inj, BitVec.toNat_sub, BitVec.toNat_ofNat]
  omega

theorem sp_add_one_eq (s : State) : s.sp + 1 = stackAddress s 1 := rfl

theorem stackAddress_zero (s : State) : stackAddress s 0 = s.sp := BitVec.add_zero s.sp

theorem stackAddress_add_one (s : State) (k : Nat) :
    stackAddress s k + 1 = stackAddress s (k + 1) := by
  simp only [stackAddress]
  bv_omega

/-! ## All four registers at once (spec/41_stack.md R135, R136) -/

/-- r3, r2, r1, r0 pushed: what `pushall` does after its fetch. -/
def State.pushAll (s : State) : State :=
  (((s.pushByte (s.reg .r3)).pushByte (s.reg .r2)).pushByte (s.reg .r1)).pushByte (s.reg .r0)

/-- r0, r1, r2, r3 popped: what `popall` does after its fetch. -/
def State.popAll (s : State) : State := (((s.popReg .r0).popReg .r1).popReg .r2).popReg .r3

theorem State.pushAll_sp (s : State) : s.pushAll.sp = s.sp - 4 := by
  simp only [State.pushAll, State.pushByte_sp]
  bv_omega

@[simp] theorem State.pushAll_ps (s : State) : s.pushAll.ps = s.ps := by simp [State.pushAll]
@[simp] theorem State.pushAll_pc (s : State) : s.pushAll.pc = s.pc := by simp [State.pushAll]
@[simp] theorem State.pushAll_clock (s : State) : s.pushAll.clock = s.clock := by
  simp [State.pushAll]

theorem State.popAll_sp (s : State) : s.popAll.sp = s.sp + 4 := by
  simp only [State.popAll, State.popReg_sp]
  bv_omega

/-- Four pushes are the four stores below SP and the one change of SP by which R135 states `pushall`. -/
theorem State.pushAll_eq_stores (s : State) :
    s.pushAll = ((((s.writeData (stackAddressBelow s 1) (s.reg .r3)).writeData
      (stackAddressBelow s 2) (s.reg .r2)).writeData (stackAddressBelow s 3) (s.reg .r1)).writeData
      (stackAddressBelow s 4) (s.reg .r0)).setSp (stackAddressBelow s 4) := by
  simp only [State.pushAll, State.pushByte_eq_setSp_writeData, State.writeData_setSp, State.setSp_sp,
    sp_sub_one_eq, stackAddressBelow_sub_one]
  rfl

/-- Four pops are the four loads from SP on and the one change of SP by which R136 states `popall`. -/
theorem State.popAll_eq_loads (s : State) :
    s.popAll = ((((s.setReg .r0 (s.readData (stackAddress s 0))).setReg
      .r1 (s.readData (stackAddress s 1))).setReg .r2 (s.readData (stackAddress s 2))).setReg
      .r3 (s.readData (stackAddress s 3))).setSp (stackAddress s 4) := by
  simp only [State.popAll, State.popReg, State.readData_setReg, State.readData_setSp, State.setSp_sp,
    sp_add_one_eq, stackAddress_add_one, stackAddress_zero]
  rfl

/-- Register k lies at SP - (4 - k): the four addresses differ modulo 256, so no push overwrites the
one before it. -/
theorem State.readData_pushAll (s : State) (r : Reg) :
    s.pushAll.readData (stackAddressBelow s (4 - regNumber r)) = s.reg r := by
  simp only [State.pushAll, State.readData_pushByte, State.pushByte_sp, sp_sub_one_eq,
    stackAddressBelow_sub_one]
  cases r <;> simp [regNumber, stackAddressBelow_inj]

theorem frame_pushAll (s : State) :
    Frame [] [stackAddressBelow s 1, stackAddressBelow s 2, stackAddressBelow s 3,
      stackAddressBelow s 4] s s.pushAll := by
  have h := (((frame_pushByte (s.reg .r3) s).trans (frame_pushByte (s.reg .r2) _)).trans
    (frame_pushByte (s.reg .r1) _)).trans (frame_pushByte (s.reg .r0) _)
  simp only [State.pushByte_sp, sp_sub_one_eq, stackAddressBelow_sub_one] at h
  exact h

/-- Register k is loaded from SP + k; no later pop writes it again. -/
theorem State.reg_popAll (s : State) (r : Reg) :
    s.popAll.reg r = s.readData (stackAddress s (regNumber r)) := by
  simp only [State.popAll, State.reg_popReg, State.readData_popReg, State.popReg_sp,
    sp_add_one_eq, stackAddress_add_one]
  cases r <;> simp [regNumber, stackAddress_zero]

theorem frame_popAll (s : State) : Frame [.r0, .r1, .r2, .r3] [] s s.popAll :=
  (((frame_popReg .r0 s).trans (frame_popReg .r1 _)).trans (frame_popReg .r2 _)).trans
    (frame_popReg .r3 _)

/-- After `pushall` the pop of register k reads what the push of register k stored. -/
theorem stackAddress_pushAll (s : State) (r : Reg) :
    stackAddress s.pushAll (regNumber r) = stackAddressBelow s (4 - regNumber r) := by
  simp only [stackAddress, stackAddressBelow, State.pushAll_sp]
  cases r <;> simp only [regNumber] <;> bv_omega

theorem State.reg_popAll_pushAll (s : State) (r : Reg) : s.pushAll.popAll.reg r = s.reg r := by
  rw [State.reg_popAll, stackAddress_pushAll, State.readData_pushAll]

theorem State.popAll_sp_pushAll (s : State) : s.pushAll.popAll.sp = s.sp := by
  rw [State.popAll_sp, State.pushAll_sp]
  exact BitVec.sub_add_cancel s.sp 4

/-! ## PC may move before the effect of a stack instruction or after it -/

theorem State.advance_advance (s : State) (m n : Nat) :
    (s.advance m).advance n = s.advance (m + n) := by
  simp only [State.advance, State.setPc, BitVec.add_assoc, BitVec.ofNat_add]

theorem State.pushAll_advance (s : State) (n : Nat) :
    (s.advance n).pushAll = s.pushAll.advance n := by
  simp only [State.pushAll, State.pushByte_advance, State.reg_advance]

theorem State.popReg_advance (s : State) (n : Nat) (r : Reg) :
    (s.advance n).popReg r = (s.popReg r).advance n := rfl

theorem State.popAll_advance (s : State) (n : Nat) :
    (s.advance n).popAll = s.popAll.advance n := rfl

end Sys2Proof.Machine
end

section
/-! The stack instructions of spec/41_stack.md: `push`, `pop`, `ldsa`, `addsp`, `setsp`, `pushall` and
`popall` (R130 to R136). -/

namespace Sys2Proof.Proofs

open Sys2Proof.Machine

/-! ## Encodings and meanings -/

theorem encode_push (rn : Reg) : encode (.push rn) = [BitVec.ofNat 8 (0xC0 + regNumber rn)] := by
  rw [encode, byteR_eq_ofNat]
  rfl

theorem encode_pop (rn : Reg) : encode (.pop rn) = [BitVec.ofNat 8 (0xC4 + regNumber rn)] := by
  rw [encode, byteR_eq_ofNat]
  rfl

theorem encode_ldsa (rn : Reg) (imm : Byte) :
    encode (.ldsa rn imm) = [BitVec.ofNat 8 (0xC8 + regNumber rn), imm] := by
  rw [encode, byteR_eq_ofNat]
  rfl

theorem exec_push (rn : Reg) (s : State) :
    exec (.push rn) s = .next ((s.pushByte (s.reg rn)).advance 1) :=
  congrArg Host.Outcome.next (State.pushByte_advance s 1 (s.reg rn))

theorem exec_pop (rn : Reg) (s : State) : exec (.pop rn) s = .next ((s.popReg rn).advance 1) := rfl

theorem exec_ldsa (rn : Reg) (imm : Byte) (s : State) :
    exec (.ldsa rn imm) s = .next ((s.advance 2).setReg rn (s.sp + imm)) := rfl

theorem exec_addsp (imm : Byte) (s : State) :
    exec (.addsp imm) s = .next ((s.advance 2).setSp (s.sp + imm)) := rfl

theorem exec_setsp (imm : Byte) (s : State) :
    exec (.setsp imm) s = .next ((s.advance 2).setSp imm) := rfl

theorem exec_pushall (s : State) : exec .pushall s = .next (s.pushAll.advance 1) := by
  rw [← State.pushAll_advance, State.pushAll_eq_stores]
  rfl

theorem exec_popall (s : State) : exec .popall s = .next (s.popAll.advance 1) := by
  rw [← State.popAll_advance, State.popAll_eq_loads]
  rfl

theorem execAll_four_pushes (s : State) :
    execAll [.push .r3, .push .r2, .push .r1, .push .r0] s = .next (s.pushAll.advance 4) := by
  simp only [execAll, exec_push, State.pushByte_advance, State.advance_advance, State.reg_advance,
    State.reg_pushByte, State.pushAll]

theorem execAll_four_pops (s : State) :
    execAll [.pop .r0, .pop .r1, .pop .r2, .pop .r3] s = .next (s.popAll.advance 4) := by
  simp only [execAll, exec_pop, State.popReg_advance, State.advance_advance, State.popAll]

theorem execAll_pushall_popall (s : State) :
    execAll [.pushall, .popall] s = .next (s.pushAll.popAll.advance 2) := by
  simp only [execAll, exec_pushall, exec_popall, State.popAll_advance, State.advance_advance]

/-! ## The statements -/

/-- Settles O29: a push and the fetch; the store is at the lowered SP. -/
theorem pushStoresBelowSp : Obligations.PushStoresBelowSp := by
  intro rn s
  have hsp : (s.sp - 1).toNat = (s.sp.toNat + 255) % 256 := by
    rw [BitVec.toNat_sub, Nat.add_comm]
    rfl
  have hcell : (s.pushByte (s.reg rn)).readData (s.pushByte (s.reg rn)).sp = s.reg rn := by
    simp [State.readData_pushByte]
  exact ⟨encode_push rn, _, exec_push rn s, (congrArg _ (State.pushByte_sp ..)).trans hsp, hcell,
    State.pushByte_ps .., advanced_of_pc_eq (by simp) (by simp),
    (frame_pushByte _ s).trans (frame_advance 1 _)⟩

/-- Settles O30: the cell is read at the old SP, and the load leaves SP to the increment. -/
theorem popLoadsAndRaisesSp : Obligations.PopLoadsAndRaisesSp := by
  intro rn s
  exact ⟨encode_pop rn, _, exec_pop rn s, State.reg_setReg_same .., BitVec.toNat_add .., rfl,
    advanced_of_pc_eq rfl rfl, (frame_popReg rn s).trans (frame_advance 1 _)⟩

/-- The signed and the unsigned reading of a byte differ by 0 or 256, so they give one sum. -/
theorem toNat_add_eq_signed8 (a b : Byte) :
    ((a + b).toNat : Int) = ((a.toNat : Int) + signed8 b) % 256 := by
  rw [BitVec.toNat_add, signed8]
  split <;> omega

/-- Settles O31: the sum is written to the one register; SP itself stays. -/
theorem loadStackAddressAddsToSp : Obligations.LoadStackAddressAddsToSp := by
  intro rn imm s
  have hreg : ((s.advance 2).setReg rn (s.sp + imm)).reg rn = s.sp + imm :=
    State.reg_setReg_same ..
  refine ⟨encode_ldsa rn imm, _, exec_ldsa rn imm s, ?_, ?_, rfl, rfl,
    advanced_of_pc_eq rfl rfl, frame_advance_setReg 2 rn _ s, rfl⟩
  · rw [hreg, BitVec.toNat_add]
  · rw [hreg, toNat_add_eq_signed8]

/-- Settles O32: both change SP and PC only. -/
theorem addspAndSetspWriteSp : Obligations.AddspAndSetspWriteSp := by
  intro imm s
  have hframe (v : Byte) : Frame [] [] s ((s.advance 2).setSp v) :=
    (frame_advance 2 s).trans (frame_setSp v _)
  exact ⟨rfl, rfl, rfl, rfl,
    ⟨_, exec_addsp imm s, BitVec.toNat_add .., rfl, advanced_of_pc_eq rfl rfl, hframe _⟩,
    ⟨_, exec_setsp imm s, rfl, rfl, advanced_of_pc_eq rfl rfl, hframe imm⟩⟩

/-- Settles O33: `pushall` is four pushes with one fetch, so it differs from them in PC only. -/
theorem pushAllStoresFourRegisters : Obligations.PushAllStoresFourRegisters := by
  intro s
  have hsp : s.pushAll.sp.toNat = (s.sp.toNat + 252) % 256 := by
    rw [State.pushAll_sp, BitVec.toNat_sub, Nat.add_comm]
    rfl
  have hcell := State.readData_pushAll s
  exact ⟨rfl, _, _, exec_pushall s, hcell .r3, hcell .r2, hcell .r1, hcell .r0, hsp,
    State.pushAll_ps s, advanced_of_pc_eq (by simp) (by simp),
    (frame_pushAll s).trans (frame_advance 1 _), execAll_four_pushes s, rfl⟩

/-- Settles O34: `popall` is four pops with one fetch; each of its loads finds what the push of the same
register in `pushall` stored. -/
theorem popAllLoadsFourRegisters : Obligations.PopAllLoadsFourRegisters := by
  intro s
  have hsp : s.popAll.sp.toNat = (s.sp.toNat + 4) % 256 := by
    rw [State.popAll_sp, BitVec.toNat_add]
    rfl
  have hreg := State.reg_popAll s
  have hpopall : s.popAll.reg .r0 = s.readData s.sp :=
    (hreg .r0).trans (congrArg s.readData (stackAddress_zero s))
  refine ⟨rfl, ⟨_, _, exec_popall s, hpopall, hreg .r1, hreg .r2, hreg .r3, hsp, rfl,
    advanced_of_pc_eq rfl rfl, (frame_popAll s).trans (frame_advance 1 _), execAll_four_pops s, rfl⟩,
    _, execAll_pushall_popall s, State.popAll_sp_pushAll s, State.pushAll_ps s,
    fun r _ => State.reg_popAll_pushAll s r⟩

end Sys2Proof.Proofs
end

section
/-! The rule that the instructions of spec/42_arithmetic.md share: one register takes a result, PS takes
the flags of that result, and PC moves past the one byte. Then what the additions and shifts compute. -/

namespace Sys2Proof.Machine

/-! ## A result and its flags written after the fetch of one byte (R140) -/

@[simp] theorem flagC_putResult (s : State) (r : Reg) (x : Alu) : flagC (s.putResult r x).ps = x.c :=
  flagC_setFlags ..

@[simp] theorem flagV_putResult (s : State) (r : Reg) (x : Alu) : flagV (s.putResult r x).ps = x.v :=
  flagV_setFlags ..

/-- Z and N as the statements read them from the result; C and V are those of the computation, in any
form `c`, `v` they are known to have. -/
theorem flagsAre_putResult (s : State) (r : Reg) {x : Alu} {c v : Bool} (hc : x.c = c) (hv : x.v = v) :
    FlagsAre c v (decide (x.res.toNat = 0)) (x.res.getLsbD 7) s ((s.advance 1).putResult r x) := by
  have hzero : (x.res == 0) = decide (x.res.toNat = 0) :=
    decide_eq_decide.mpr BitVec.toNat_inj.symm
  rw [← hc, ← hv, ← hzero]
  exact flagsAre_setFlags rfl

/-- Nothing but the register, the flags and PC changes. -/
theorem putResult_keeps (s : State) (r : Reg) (x : Alu) :
    ((s.advance 1).putResult r x).sp = s.sp ∧ Advanced 1 s ((s.advance 1).putResult r x) ∧
      Frame [r] [] s ((s.advance 1).putResult r x) :=
  ⟨rfl, advanced_of_pc_eq rfl rfl,
    frame_of_memories_eq (regsKept_putResult s 1 r x) rfl rfl ⟨rfl, rfl, rfl, rfl⟩ []⟩

/-! ## Additions (R140) -/

@[simp] theorem bitValue_false : bitValue false = 0 := rfl

/-- V of an addition by the comparison of bits 7 that the spec writes. -/
theorem add8_v_eq_decide (a b : Byte) (cin : Bool) :
    (add8 a b cin).v = decide (a.getLsbD 7 = b.getLsbD 7 ∧
      (add8 a b cin).res.getLsbD 7 ≠ a.getLsbD 7) := by
  rw [Bool.decide_and]
  simp only [add8, ne_eq, decide_not, Bool.beq_eq_decide_eq, bne]

/-- Without overflow the signed reading of the result is the sum of the signed readings. -/
theorem signed8_add8 {a b : Byte} {cin : Bool} (hv : (add8 a b cin).v = false) :
    signed8 (add8 a b cin).res = signed8 a + signed8 b + bitValue cin := by
  have hrange : ¬(signed8 a + signed8 b + bitValue cin < -128 ∨
      127 < signed8 a + signed8 b + bitValue cin) := by
    rw [← add8_v, hv]
    exact Bool.false_ne_true
  have hres := add8_res_toNat a b cin
  have ha := a.isLt
  have hb := b.isLt
  simp only [signed8] at hrange ⊢
  omega

/-! ## Shifts (R153, R154) -/

theorem bitValue_decide (p : Prop) [Decidable p] : bitValue (decide p) = if p then 1 else 0 := by
  simp only [bitValue, decide_eq_true_eq]

theorem bitValue_getLsbD_zero (x : Byte) : bitValue (x.getLsbD 0) = x.toNat % 2 := by
  rw [BitVec.getLsbD, Nat.testBit_zero, bitValue_decide]
  split <;> omega

theorem bitValue_getLsbD_seven (x : Byte) : bitValue (x.getLsbD 7) = x.toNat / 128 := by
  have hx := x.isLt
  rw [getLsbD_seven, bitValue_decide]
  split <;> omega

theorem shra8_res_toNat (x : Byte) :
    (shra8 x).res.toNat = bitValue (x.getLsbD 7) * 128 + x.toNat / 2 := by
  have hx := x.isLt
  simp only [shra8, BitVec.toNat_ofNat, bitValue_getLsbD_seven]
  omega

/-- Quotient and remainder of the signed reading by 2; the remainder is 0 or 1, so the quotient is
rounded toward minus infinity. -/
theorem signed8_shra8 (x : Byte) :
    signed8 x = 2 * signed8 (shra8 x).res + bitValue (shra8 x).c := by
  have hx := x.isLt
  have hres := shra8_res_toNat x
  have hcarry : bitValue (shra8 x).c = x.toNat % 2 := bitValue_getLsbD_zero x
  rw [bitValue_getLsbD_seven] at hres
  simp only [signed8]
  omega

/-- Bit 6 moves to bit 7. -/
theorem shla8_res_getLsbD_seven (x : Byte) : (shla8 x).res.getLsbD 7 = x.getLsbD 6 := by
  calc (shla8 x).res.getLsbD 7
      = (x.toNat * 2).testBit 7 := BitVec.getLsbD_ofNat 8 (x.toNat * 2) 7
    _ = (x.toNat * 2 / 2).testBit 6 := Nat.testBit_succ (x.toNat * 2) 6
    _ = x.getLsbD 6 := by rw [Nat.mul_div_cancel _ Nat.two_pos, BitVec.getLsbD]

/-- An arithmetic shift to the left adds the number to itself: the carry is old bit 7, and the sum
overflows when bit 7 changes. -/
theorem shla8_eq_add8 (x : Byte) : shla8 x = add8 x x false := by
  have hres : (shla8 x).res = (add8 x x false).res := by
    rw [shla8, add8, bitValue_false, Nat.add_zero, Nat.mul_two]
  have hc : (shla8 x).c = (add8 x x false).c := by
    rw [add8_c, shla8, getLsbD_seven, decide_eq_decide, bitValue_false]
    omega
  have hv : (shla8 x).v = (add8 x x false).v := by
    rw [add8_v_eq_decide, ← hres, shla8_res_getLsbD_seven, shla8]
    cases x.getLsbD 7 <;> cases x.getLsbD 6 <;> rfl
  exact (Alu.mk.injEq ..).mpr ⟨hres, hc, hv⟩

end Sys2Proof.Machine
end

section
/-! Additions, complement and arithmetic shifts of spec/42_arithmetic.md: `add` (R142), `addc` (R143),
`not` (R152), `shra` (R153) and `shla` (R154). -/

namespace Sys2Proof.Proofs

open Sys2Proof.Machine

/-! ## Encodings and meanings -/

theorem encode_add (rn rm : Reg) :
    encode (.add rn rm) = [BitVec.ofNat 8 (0x10 + 4 * regNumber rn + regNumber rm)] := by
  rw [encode, byteRR_eq_ofNat]
  rfl

theorem encode_addc (rn rm : Reg) :
    encode (.addc rn rm) = [BitVec.ofNat 8 (0x20 + 4 * regNumber rn + regNumber rm)] := by
  rw [encode, byteRR_eq_ofNat]
  rfl

theorem encode_not (rn : Reg) : encode (.not rn) = [BitVec.ofNat 8 (0x80 + regNumber rn)] := by
  rw [encode, byteR_eq_ofNat]
  rfl

theorem encode_shra (rn : Reg) : encode (.shra rn) = [BitVec.ofNat 8 (0x98 + regNumber rn)] := by
  rw [encode, byteR_eq_ofNat]
  rfl

theorem encode_shla (rn : Reg) : encode (.shla rn) = [BitVec.ofNat 8 (0x94 + regNumber rn)] := by
  rw [encode, byteR_eq_ofNat]
  rfl

theorem exec_add (rn rm : Reg) (s : State) :
    exec (.add rn rm) s = .next ((s.advance 1).putResult rm (add8 (s.reg rn) (s.reg rm) false)) := rfl

theorem exec_addc (rn rm : Reg) (s : State) :
    exec (.addc rn rm) s =
      .next ((s.advance 1).putResult rm (add8 (s.reg rn) (s.reg rm) (flagC s.ps))) := rfl

theorem exec_not (rn : Reg) (s : State) :
    exec (.not rn) s = .next ((s.advance 1).putResult rn (logic8 (~~~(s.reg rn)))) := rfl

theorem exec_shra (rn : Reg) (s : State) :
    exec (.shra rn) s = .next ((s.advance 1).putResult rn (shra8 (s.reg rn))) := rfl

theorem exec_shla (rn : Reg) (s : State) :
    exec (.shla rn) s = .next ((s.advance 1).putResult rn (shla8 (s.reg rn))) := rfl

theorem exec_shla_eq_exec_add (rn : Reg) (s : State) : exec (.shla rn) s = exec (.add rn rn) s := by
  rw [exec_shla, exec_add, shla8_eq_add8]

/-! ## The statements -/

/-- Settles O36: both operands are read before the write, so `rn = rm` is no special case. -/
theorem addWritesSumAndFlags : Obligations.AddWritesSumAndFlags := by
  intro rn rm s
  have hoverflow : (add8 (s.reg rn) (s.reg rm) false).v = true ↔
      signed8 (s.reg rn) + signed8 (s.reg rm) < -128 ∨
        127 < signed8 (s.reg rn) + signed8 (s.reg rm) := by
    simpa using add8_v (s.reg rn) (s.reg rm) false
  refine ⟨encode_add rn rm, _, exec_add rn rm s, ?_⟩
  simp only [State.reg_putResult_same, flagV_putResult]
  exact ⟨add8_res_toNat .., flagsAre_putResult s rm (add8_c ..) (add8_v_eq_decide ..), hoverflow,
    putResult_keeps s rm _⟩

/-- Settles O37: the carry is that of the state before. -/
theorem addWithCarryWritesSumAndFlags : Obligations.AddWithCarryWritesSumAndFlags := by
  intro rn rm s
  refine ⟨encode_addc rn rm, _, exec_addc rn rm s, ?_⟩
  simp only [State.reg_putResult_same, flagV_putResult]
  exact ⟨add8_res_toNat .., flagsAre_putResult s rm (add8_c ..) (add8_v_eq_decide ..), add8_v ..,
    putResult_keeps s rm _⟩

/-- Settles O44: the complement, as a number and bit by bit. -/
theorem notWritesComplement : Obligations.NotWritesComplement := by
  intro rn s
  have hbits (k : Nat) (hk : k < 8) : (~~~(s.reg rn)).getLsbD k = !(s.reg rn).getLsbD k := by
    rw [BitVec.getLsbD_not, decide_eq_true hk, Bool.true_and]
  refine ⟨encode_not rn, _, exec_not rn s, ?_⟩
  simp only [State.reg_putResult_same]
  exact ⟨BitVec.toNat_not, hbits, flagsAre_putResult s rn rfl rfl, putResult_keeps s rn _⟩

/-- Settles O45: C, old bit 0, is the remainder of the division by 2. -/
theorem shraKeepsSignBit : Obligations.ShraKeepsSignBit := by
  intro rn s
  refine ⟨encode_shra rn, _, exec_shra rn s, ?_⟩
  simp only [State.reg_putResult_same, flagC_putResult]
  exact ⟨shra8_res_toNat _, signed8_shra8 _, flagsAre_putResult s rn rfl rfl,
    putResult_keeps s rn _⟩

/-- Settles O46: the shift is the sum of the register with itself, so its value and its signed reading
are those of `add8`; its V compares the old bit 7 with the bit that moves there. -/
theorem shlaDoublesAndSetsFlags : Obligations.ShlaDoublesAndSetsFlags := by
  intro rn s
  have hdouble : (shla8 (s.reg rn)).res.toNat = (2 * (s.reg rn).toNat) % 256 := by
    rw [shla8_eq_add8, add8_res_toNat, bitValue_false, Nat.add_zero, Nat.two_mul]
  have hsigned (hv : (shla8 (s.reg rn)).v = false) :
      signed8 (shla8 (s.reg rn)).res = 2 * signed8 (s.reg rn) := by
    rw [shla8_eq_add8] at hv ⊢
    rw [signed8_add8 hv, Int.two_mul, bitValue_false, Nat.cast_zero, Int.add_zero]
  have hchange : (shla8 (s.reg rn)).v =
      ((s.reg rn).getLsbD 7 ^^ (shla8 (s.reg rn)).res.getLsbD 7) := by
    rw [shla8_res_getLsbD_seven]
    rfl
  refine ⟨encode_shla rn, _, exec_shla rn s, ?_⟩
  simp only [State.reg_putResult_same, flagV_putResult]
  exact ⟨hdouble, hsigned, flagsAre_putResult s rn rfl hchange,
    (exec_shla_eq_exec_add rn s).symm.trans (exec_shla rn s), putResult_keeps s rn _⟩

end Sys2Proof.Proofs
end

section
/-! Rules for the 16-bit stores: a word in data memory and a word pushed (spec/00_scope.md R11,
spec/43_control.md R175). -/

namespace Sys2Proof.Machine

theorem frame_setPc (target : Addr) (s : State) : Frame [] [] s (s.setPc target) :=
  frame_of_memories_eq (fun _ _ => rfl) rfl rfl ⟨rfl, rfl, rfl, rfl⟩ []

theorem frame_writeData16 (a : Byte) (w : Addr) (s : State) :
    Frame [] [a, a + 1] s (s.writeData16 a w) :=
  (frame_writeData a (lo w) s).trans (frame_writeData (a + 1) (hi w) _)

theorem stackAddressBelow_add_one (s : State) (k : Nat) :
    stackAddressBelow s (k + 1) + 1 = stackAddressBelow s k := by
  rw [← stackAddressBelow_sub_one, BitVec.sub_add_cancel]

theorem State.readData_sp_pushWord (s : State) (w : Addr) :
    (s.pushWord w).readData (s.pushWord w).sp = lo w := by
  have hne : s.sp - 2 ≠ s.sp - 2 + 1 := by bv_omega
  rw [State.readData_pushWord, State.pushWord_sp, if_neg hne, if_pos rfl]

theorem State.readData_sp_add_one_pushWord (s : State) (w : Addr) :
    (s.pushWord w).readData ((s.pushWord w).sp + 1) = hi w := by
  rw [State.readData_pushWord, State.pushWord_sp, if_pos rfl]

theorem frame_pushWord (w : Addr) (s : State) :
    Frame [] [stackAddressBelow s 2, stackAddressBelow s 1] s (s.pushWord w) := by
  have h := (frame_setSp (s.sp - 2) s).trans (frame_writeData16 (stackAddressBelow s 2) w _)
  rw [stackAddressBelow_add_one] at h
  exact h

end Sys2Proof.Machine
end

section
/-! The subroutine call of spec/43_control.md: `jsr` (R175). -/

namespace Sys2Proof.Proofs

open Sys2Proof.Machine

theorem exec_jsr (target : Addr) (s : State) :
    exec (.jsr target) s = .next (((s.advance 3).pushWord (s.pc + 3)).setPc target) := rfl

/-- Settles O52: the jump leaves the stack alone, so the two cells are those of the word pushed, and
that word is PC past the three bytes of the instruction. -/
theorem jsrPushesReturnAddress : Obligations.JsrPushesReturnAddress := by
  intro target s
  have hreturn : (s.pc + 3).toNat = (s.pc.toNat + 3) % 65536 := BitVec.toNat_add ..
  refine ⟨rfl, _, exec_jsr target s, rfl, ?newSp, ?lowByte, ?highByte, ?ps, ?clock, ?frame⟩
  case newSp =>
    rw [State.setPc_sp, State.pushWord_sp, State.advance_sp, BitVec.toNat_sub, Nat.add_comm]
    rfl
  case lowByte =>
    rw [State.readData_setPc, State.setPc_sp, State.readData_sp_pushWord, lo_toNat, hreturn]
  case highByte =>
    rw [State.readData_setPc, State.setPc_sp, State.readData_sp_add_one_pushWord, hi_toNat, hreturn]
  case ps => rw [State.setPc_ps, State.pushWord_ps, State.advance_ps]
  case clock => rw [State.setPc_clock, State.pushWord_clock, State.advance_clock]
  case frame =>
    exact ((frame_advance 3 s).trans (frame_pushWord (s.pc + 3) _)).trans (frame_setPc target _)

end Sys2Proof.Proofs
end

section
/-! The encoding (spec/30_encoding.md): the fields of an opcode byte, and what the opcode byte alone says
of the encoding of the instructions it begins. -/

namespace Sys2Proof

/-! ## The fields of an opcode byte (R81) -/

@[simp] theorem highNibble_byteRR (op : BitVec 4) (rn rm : Reg) :
    (byteRR op rn rm).extractLsb' 4 4 = op := by
  rw [byteRR, BitVec.extractLsb'_append_eq_left]

@[simp] theorem rrFirst_byteRR (op : BitVec 4) (rn rm : Reg) : rrFirst (byteRR op rn rm) = rn := by
  have hfield : (byteRR op rn rm).extractLsb' 2 2 = regBits rn := by
    apply BitVec.eq_of_toNat_eq
    simp only [byteRR, BitVec.extractLsb'_toNat, Machine.toNat_append_eq_add, Nat.shiftRight_eq_div_pow]
    have hn := (regBits rn).isLt
    have hm := (regBits rm).isLt
    omega
  rw [rrFirst, hfield, regOfBits_regBits]

@[simp] theorem lowReg_byteRR (op : BitVec 4) (rn rm : Reg) : lowReg (byteRR op rn rm) = rm := by
  have hfield : (byteRR op rn rm).extractLsb' 0 2 = regBits rm := by
    apply BitVec.eq_of_toNat_eq
    simp only [byteRR, BitVec.extractLsb'_toNat, Machine.toNat_append_eq_add, Nat.shiftRight_zero]
    have hm := (regBits rm).isLt
    omega
  rw [lowReg, hfield, regOfBits_regBits]

theorem regBits_regOfBits (b : BitVec 2) : regBits (regOfBits b) = b := by
  revert b
  decide

/-- Every byte splits into the fields of format RR. -/
theorem exists_byteRR (b : Byte) : ∃ op rn rm, b = byteRR op rn rm := by
  refine ⟨b.extractLsb' 4 4, rrFirst b, lowReg b, BitVec.eq_of_toNat_eq ?_⟩
  have hb := b.isLt
  simp only [byteRR, rrFirst, lowReg, regBits_regOfBits, Machine.toNat_append_eq_add,
    BitVec.extractLsb'_toNat, Nat.shiftRight_eq_div_pow]
  omega

/-! ## What the opcode byte says of the encoding (R80, R89) -/

/-- The instructions a template stands for begin with the byte `b`, followed by the immediate bytes. -/
def Template.Encodes (b : Byte) : Template → Prop
  | .whole i => encode i = [b]
  | .needsByte f => ∀ x, encode (f x) = [b, x]
  | .needsAddr f => ∀ a, encode (f a) = [b, lo a, hi a]

/-- The number of bytes a template stands for. -/
def Template.length : Template → Nat
  | .whole _ => 1
  | .needsByte _ => 2
  | .needsAddr _ => 3

/-- What is to hold of an opcode byte and of the decoder's answer for it. -/
def OpcodeMeaning (b : Byte) : Option Template → Prop
  | none => Machine.UnassignedOpcode b
  | some t => t.Encodes b ∧ lengthOfOpcode b = t.length

theorem byteRR_toNat (op : BitVec 4) (rn rm : Reg) :
    (byteRR op rn rm).toNat = 16 * op.toNat + 4 * Machine.regNumber rn + Machine.regNumber rm := by
  rw [byteRR, Machine.toNat_append_eq_add, Machine.toNat_append_eq_add, Machine.regBits_toNat,
    Machine.regBits_toNat]
  omega

theorem regNumber_lt (r : Reg) : Machine.regNumber r < 4 := by cases r <;> decide

/-- The opcode bytes of format RR have a number of 0 to 7, 10, 11 or 15 in bits 7:4. -/
theorem opcodeMeaning_rr {op : BitVec 4} {k : Nat} (rn rm : Reg) (hop : op.toNat = k)
    (hk : k < 12 ∨ k = 15) {i : Instr} (hi : encode i = [byteRR (BitVec.ofNat 4 k) rn rm]) :
    OpcodeMeaning (byteRR op rn rm) (some (.whole i)) := by
  obtain rfl : op = BitVec.ofNat 4 k := by rw [← hop, BitVec.ofNat_toNat, BitVec.setWidth_eq]
  have hn := regNumber_lt rn
  have hm := regNumber_lt rm
  have hvalue := byteRR_toNat (BitVec.ofNat 4 k) rn rm
  rw [hop] at hvalue
  refine ⟨hi, ?_⟩
  simp only [lengthOfOpcode, ← BitVec.toNat_inj, hvalue, Template.length]
  rw [if_neg, if_neg] <;> simp <;> omega

/-- The opcode bytes 0x80 to 0x9F, format R. -/
theorem opcodeMeaning_unary {op : BitVec 4} (hop : op = 8 ∨ op = 9) (rn rm : Reg) :
    OpcodeMeaning (byteRR op rn rm) (some (decodeUnary (byteRR op rn rm))) := by
  rcases hop with rfl | rfl <;> cases rn <;> cases rm <;> exact ⟨rfl, by decide⟩

/-- The opcode bytes 0xC0 to 0xCF. -/
theorem opcodeMeaning_stack (rn rm : Reg) :
    OpcodeMeaning (byteRR 12 rn rm) (some (decodeStack (byteRR 12 rn rm))) := by
  cases rn with
  | r0 | r1 => cases rm <;> exact ⟨rfl, by decide⟩
  | r2 => cases rm <;> exact ⟨fun _ => rfl, by decide⟩
  | r3 =>
    cases rm with
    | r0 | r1 => exact ⟨fun _ => rfl, by decide⟩
    | r2 | r3 => exact ⟨rfl, by decide⟩

/-- The opcode bytes 0xD0 to 0xDF, the four unassigned ones of R96 among them. -/
theorem opcodeMeaning_system (rn rm : Reg) :
    OpcodeMeaning (byteRR 13 rn rm) (decodeSystem (byteRR 13 rn rm)) := by
  cases rn with
  | r0 => cases rm <;> exact ⟨fun _ => rfl, by decide⟩
  | r1 =>
    cases rm with
    | r2 => exact ⟨fun _ => rfl, by decide⟩
    | r0 | r1 | r3 => exact ⟨rfl, by decide⟩
  | r2 =>
    cases rm with
    | r0 | r1 | r2 => exact ⟨rfl, by decide⟩
    | r3 => exact .inl rfl
  | r3 =>
    cases rm with
    | r0 => exact .inr (.inl rfl)
    | r1 => exact ⟨fun _ => rfl, by decide⟩
    | r2 => exact .inr (.inr (.inl rfl))
    | r3 => exact .inr (.inr (.inr rfl))

/-- The opcode bytes 0xE0 to 0xEF, format B. -/
theorem opcodeMeaning_branch (rn rm : Reg) :
    OpcodeMeaning (byteRR 14 rn rm) (some (decodeBranch (byteRR 14 rn rm))) := by
  cases rn <;> cases rm <;> exact ⟨fun _ => rfl, by decide⟩

/-- The decoder's table agrees with the encoder on every opcode byte, and with the lengths of R89. -/
theorem opcodeMeaning_decodeOpcode (b : Byte) : OpcodeMeaning b (decodeOpcode b) := by
  obtain ⟨op, rn, rm, rfl⟩ := exists_byteRR b
  have hop {k : Nat} (h : op.toNat = k) : op = BitVec.ofNat 4 k := by
    rw [← h, BitVec.ofNat_toNat, BitVec.setWidth_eq]
  simp only [decodeOpcode, highNibble_byteRR, rrFirst_byteRR, lowReg_byteRR]
  split
  case h_9 h => exact opcodeMeaning_unary (.inl (hop h)) rn rm
  case h_10 h => exact opcodeMeaning_unary (.inr (hop h)) rn rm
  case h_13 h => exact hop h ▸ opcodeMeaning_stack rn rm
  case h_14 h => exact hop h ▸ opcodeMeaning_system rn rm
  case h_15 h => exact hop h ▸ opcodeMeaning_branch rn rm
  case h_16 =>
    have hlt := op.isLt
    have hlast : op.toNat = 15 := by
      simp only [imp_false] at *
      omega
    exact opcodeMeaning_rr rn rm hlast (by decide) rfl
  all_goals next h => exact opcodeMeaning_rr rn rm h (by decide) rfl

theorem decodeOpcode_eq_none_iff (b : Byte) : decodeOpcode b = none ↔ Machine.UnassignedOpcode b := by
  refine ⟨fun h => ?_, fun h => ?_⟩
  · have hmeaning := opcodeMeaning_decodeOpcode b
    rwa [h] at hmeaning
  · rcases h with rfl | rfl | rfl | rfl <;> rfl

theorem encodes_of_decodeOpcode {b : Byte} {t : Template} (h : decodeOpcode b = some t) :
    t.Encodes b := by
  have hmeaning := opcodeMeaning_decodeOpcode b
  rw [h] at hmeaning
  exact hmeaning.1

theorem lengthOfOpcode_of_decodeOpcode {b : Byte} {t : Template} (h : decodeOpcode b = some t) :
    lengthOfOpcode b = t.length := by
  have hmeaning := opcodeMeaning_decodeOpcode b
  rw [h] at hmeaning
  exact hmeaning.2

end Sys2Proof
end

section
/-! The encoding: the decoder and the encoder undo each other, the opcode map, and which byte sequences do
not decode (spec/30_encoding.md). -/

namespace Sys2Proof.Proofs

open Sys2Proof.Machine

/-! ## Round trips (R81, R87) -/

/-- Settles O1: the register fields of the opcode byte are read back as the registers they were made from,
and a 16-bit immediate is joined from its two bytes. -/
theorem decodeInvertsEncode : Obligations.DecodeInvertsEncode := by
  intro i rest
  cases i with
  | move rn rm | add rn rm | addc rn rm | sub rn rm | and rn rm | or rn rm | xor rn rm | cmp rn rm
  | st rn rm | ld rn rm | ldc rn rm => simp [encode, decode, decodeOpcode]
  | not rn | neg rn | dec rn | inc rn | shr rn | shla rn | shra rn | rol rn
  | push rn | pop rn | ldsa rn imm | ldi rn imm => cases rn <;> rfl
  | jsr target => exact congrArg (fun a => Decoded.instr (.jsr a) rest) (concat16_hi_lo target)
  | jmp target => exact congrArg (fun a => Decoded.instr (.jmp a) rest) (concat16_hi_lo target)
  | addsp imm | setsp imm | pushall | popall | halt | wait | rts | ioi | rti | crc
  | beq off | bne off | bhs off | blo off | bmi off | bpl off | bvs off | bvc off
  | bhi off | bls off | bge off | blt off | bgt off | ble off | br off | bfalse off => rfl

/-- Settles O2: the opcode byte decides the template, and a template takes exactly the immediate bytes that
its instructions are encoded with. -/
theorem encodeInvertsDecode : Obligations.EncodeInvertsDecode := by
  intro bs i rest h
  cases bs with
  | nil => cases h
  | cons b tail =>
    cases ht : decodeOpcode b with
    | none => simp [decode, ht] at h
    | some t =>
      have hencodes := encodes_of_decodeOpcode ht
      cases t with
      | whole j =>
        simp only [decode, ht, Decoded.instr.injEq] at h
        obtain ⟨rfl, rfl⟩ := h
        rw [hencodes, List.singleton_append]
      | needsByte f =>
        match tail with
        | [] => simp [decode, ht] at h
        | x :: more =>
          simp only [decode, ht, Decoded.instr.injEq] at h
          obtain ⟨rfl, rfl⟩ := h
          rw [hencodes x]
          rfl
      | needsAddr f =>
        match tail with
        | [] | [_] => simp [decode, ht] at h
        | l :: hb :: more =>
          simp only [decode, ht, Decoded.instr.injEq] at h
          obtain ⟨rfl, rfl⟩ := h
          rw [hencodes (concat16 hb l), lo_concat16, hi_concat16]
          rfl

/-- Settles O3: the decoder's table has no entry for exactly the four unassigned bytes, and its templates
have the lengths of R89. -/
theorem decodeRefusesOnlyUnassigned : Obligations.DecodeRefusesOnlyUnassigned := by
  intro b rest
  have hnone := decodeOpcode_eq_none_iff b
  cases ht : decodeOpcode b with
  | none =>
    have hun : UnassignedOpcode b := hnone.mp ht
    simp [decode, ht, hun, eq_comm]
  | some t =>
    have hassigned : ¬UnassignedOpcode b := fun hun => by simp [hnone.mpr hun] at ht
    rw [lengthOfOpcode_of_decodeOpcode ht]
    cases t with
    | whole j => simp [decode, ht, hassigned, Template.length]
    | needsByte f =>
      match rest with
      | [] | _ :: _ => simp [decode, ht, hassigned, Template.length]
    | needsAddr f =>
      match rest with
      | [] | [_] | _ :: _ :: _ => simp [decode, ht, hassigned, Template.length]

/-! ## The opcode map (R88) -/

/-- The low byte of a 16-bit target comes first. -/
theorem lo_eq_ofNat (a : Addr) : lo a = BitVec.ofNat 8 a.toNat := by
  apply BitVec.eq_of_toNat_eq
  rw [lo_toNat, BitVec.toNat_ofNat]

theorem hi_eq_ofNat (a : Addr) : hi a = BitVec.ofNat 8 (a.toNat / 256) := by
  have ha := a.isLt
  apply BitVec.eq_of_toNat_eq
  rw [hi_toNat, BitVec.toNat_ofNat]
  omega

/-- Settles O4: formats RR and R by the numbers of their fields, the rest as the bytes stand. -/
theorem opcodeMap : Obligations.OpcodeMap := by
  intro rn rm x a
  simp only [encode, byteRR_eq_ofNat, byteR_eq_ofNat, lo_eq_ofNat, hi_eq_ofNat, bytesB]
  simp [condCode]

/-- Settles O5: the bits written out are the numbers of the opcode map. -/
theorem sampleWordsDecode : Obligations.SampleWordsDecode := by
  exact ⟨rfl, rfl, rfl, rfl, rfl, rfl, rfl, rfl⟩

end Sys2Proof.Proofs
end

section
/-! The meaning of each instruction as one composition of the state's operations, for the instructions
whose equation does not stand with an earlier statement (spec/40_memory_access.md to
spec/44_clock_control.md). PC moves first or last: the operations do not read it. -/

namespace Sys2Proof.Proofs

open Sys2Proof.Machine Sys2Proof.Asm

theorem exec_move (rn rm : Reg) (s : State) :
    exec (.move rn rm) s = .next ((s.advance 1).putResult rm (logic8 (s.reg rn))) := rfl

theorem exec_sub (rn rm : Reg) (s : State) :
    exec (.sub rn rm) s = .next ((s.advance 1).putResult rm (sub8 (s.reg rn) (s.reg rm))) := rfl

theorem exec_cmp (rn rm : Reg) (s : State) :
    exec (.cmp rn rm) s = .next ((s.advance 1).putFlags (sub8 (s.reg rn) (s.reg rm))) := rfl

theorem exec_neg (rn : Reg) (s : State) :
    exec (.neg rn) s = .next ((s.advance 1).putResult rn (sub8 0x00 (s.reg rn))) := rfl

theorem exec_inc (rn : Reg) (s : State) :
    exec (.inc rn) s = .next ((s.advance 1).putResult rn (add8 (s.reg rn) 0x01 false)) := rfl

theorem exec_dec (rn : Reg) (s : State) :
    exec (.dec rn) s = .next ((s.advance 1).putResult rn (sub8 (s.reg rn) 0x01)) := rfl

theorem exec_and (rn rm : Reg) (s : State) :
    exec (.and rn rm) s = .next ((s.advance 1).putResult rm (logic8 (s.reg rn &&& s.reg rm))) := rfl

theorem exec_or (rn rm : Reg) (s : State) :
    exec (.or rn rm) s = .next ((s.advance 1).putResult rm (logic8 (s.reg rn ||| s.reg rm))) := rfl

theorem exec_xor (rn rm : Reg) (s : State) :
    exec (.xor rn rm) s = .next ((s.advance 1).putResult rm (logic8 (s.reg rn ^^^ s.reg rm))) := rfl

theorem exec_shr (rn : Reg) (s : State) :
    exec (.shr rn) s = .next ((s.advance 1).putResult rn (shr8 (s.reg rn) (flagC s.ps))) := rfl

theorem exec_rol (rn : Reg) (s : State) :
    exec (.rol rn) s = .next ((s.advance 1).putResult rn (rol8 (s.reg rn))) := rfl

theorem exec_ldc (rn rm : Reg) (s : State) :
    exec (.ldc rn rm) s = .next ((s.advance 1).setReg rm (s.readCode (codeAddress s rn))) := rfl

theorem exec_st (rn rm : Reg) (s : State) :
    exec (.st rn rm) s = .next ((s.writeData (dataAddress s rn) (s.reg rm)).advance 1) :=
  congrArg Host.Outcome.next (State.writeData_advance s 1 (dataAddress s rn) (s.reg rm))

/-- The sixteen branches are one operation with the condition as its argument (R170, R171). -/
theorem exec_branchInstr (c : Cond) (off : Byte) (s : State) :
    exec (branchInstr c off) s = .next (branch c off s) := by
  cases c <;> rfl

theorem exec_jmp (target : Addr) (s : State) : exec (.jmp target) s = .next (s.setPc target) := rfl

theorem exec_rts (s : State) :
    exec .rts s = .next ((s.setPc (s.readData16 s.sp)).setSp (s.sp + 2)) := rfl

theorem exec_ioi (s : State) :
    exec .ioi s = .next (enterInterrupt s.input.irqVector (s.pc + 1) (s.advance 1)) := rfl

theorem exec_rti (s : State) : exec .rti s = .next (returnFromInterrupt s) := rfl

theorem exec_crc (s : State) :
    exec .crc s = .next ((s.writeData16 s.sp (s.pc + 1)).setPc (s.readData16 s.sp)) := by
  show Host.Outcome.next (((s.advance 1).writeData16 s.sp (s.pc + 1)).setPc (s.readData16 s.sp)) = _
  simp only [State.writeData16, State.writeData_advance]
  rfl

theorem exec_halt (s : State) : exec .halt s = .next (s.setClock .halted) := rfl

theorem exec_wait (s : State) : exec .wait s = .next (s.setClock .waiting) := rfl

end Sys2Proof.Proofs
end

section
/-! What an instruction may change, said once for all instructions (spec/10_state.md R22 to R40,
spec/20_memory.md R55): `ExecEffect`. -/

namespace Sys2Proof.Machine

/-! ## The data addresses that a list of accesses writes -/

@[simp] theorem writtenAddresses_nil : writtenAddresses [] = [] := rfl

@[simp] theorem writtenAddresses_cons_dataWrite (a : Byte) (xs : List Access) :
    writtenAddresses (dataWrite a :: xs) = a :: writtenAddresses xs := by
  have h : (zext16 a).setWidth 8 = a := by simp [zext16]
  simp [writtenAddresses, dataWrite, h]

@[simp] theorem writtenAddresses_cons_dataRead (a : Byte) (xs : List Access) :
    writtenAddresses (dataRead a :: xs) = writtenAddresses xs := rfl

@[simp] theorem writtenAddresses_cons_codeRead (c : Addr) (xs : List Access) :
    writtenAddresses (codeRead c :: xs) = writtenAddresses xs := rfl

/-- The fetches of an instruction write nothing. -/
theorem writtenAddresses_instrAccesses (i : Instr) (s : State) :
    writtenAddresses (instrAccesses i s) = writtenAddresses (furtherAccesses i s) := by
  simp [writtenAddresses, instrAccesses, fetchAccesses, codeRead]

theorem writtenAddresses_entryAccesses (v : BitVec 3) (s : State) :
    writtenAddresses (entryAccesses v s) =
      [stackAddressBelow s 2, stackAddressBelow s 1, stackAddressBelow s 3] := by
  simp [entryAccesses]

/-! ## Frames of the remaining operations -/

theorem frame_setPs (v : Byte) (s : State) : Frame [] [] s (s.setPs v) :=
  frame_of_memories_eq (fun _ _ => rfl) rfl rfl ⟨rfl, rfl, rfl, rfl⟩ []

theorem frame_setClock (c : Clock) (s : State) : Frame [] [] s (s.setClock c) :=
  frame_of_memories_eq (fun _ _ => rfl) rfl rfl ⟨rfl, rfl, rfl, rfl⟩ []

theorem frame_returnFromInterrupt (s : State) : Frame [] [] s (returnFromInterrupt s) :=
  frame_of_memories_eq (fun _ _ => rfl) rfl rfl ⟨rfl, rfl, rfl, rfl⟩ []

theorem frame_branch (c : Cond) (off : Byte) (s : State) : Frame [] [] s (branch c off s) :=
  branch_eq_setPc c off s ▸ frame_setPc _ s

/-- An interrupt entry stores the word of the return address, then PS below it (R215). -/
theorem frame_enterInterrupt (v : BitVec 3) (ret : Addr) (s : State) :
    Frame [] [stackAddressBelow s 2, stackAddressBelow s 1, stackAddressBelow s 3] s
      (enterInterrupt v ret s) := by
  have h := (frame_pushWord ret s).trans (frame_pushByte s.ps (s.pushWord ret))
  rw [State.pushWord_sp, show s.sp - 2 = stackAddressBelow s 2 from rfl,
    stackAddressBelow_sub_one] at h
  exact (h.trans (frame_setPc _ _)).trans (frame_setPs _ _)

/-! ## The effect of an instruction -/

/-- What the tables of the statements say of an instruction that leads from `s` to `t`. -/
structure ExecEffect (i : Instr) (s t : State) : Prop where
  frame : Frame (writtenRegs i) (writtenAddresses (furtherAccesses i s)) s t
  sp : writesSp i = false → t.sp = s.sp
  flagsOnly : writesFlags i = true → ∀ k, 4 ≤ k → t.ps.getLsbD k = s.ps.getLsbD k
  ps : writesFlags i = false → i ≠ .ioi → i ≠ .rti → t.ps = s.ps
  pc : redirects i = false → t.pc = s.pc + BitVec.ofNat 16 i.length
  clock : i ≠ .halt → i ≠ .wait → t.clock = s.clock
  canonical : MemoriesCanonical s → MemoriesCanonical t

/-- The arithmetic instructions with a result: they are in the tables as those that write one register
and flags. -/
theorem execEffect_putResult {i : Instr} {r : Reg} (hregs : writtenRegs i = [r])
    (hflags : writesFlags i = true) (hlength : i.length = 1) (x : Alu) (s : State) :
    ExecEffect i s ((s.advance 1).putResult r x) where
  frame := hregs ▸ frame_of_memories_eq (regsKept_putResult s 1 r x) rfl rfl ⟨rfl, rfl, rfl, rfl⟩ _
  sp _ := rfl
  flagsOnly _ _ hk := getLsbD_setFlags_high _ _ _ _ hk
  ps h := by simp [hflags] at h
  pc _ := by rw [hlength]; rfl
  clock _ _ := rfl
  canonical := id

/-- An instruction that changes neither a memory nor, but for `ioi` and `rti`, PS. -/
theorem execEffect_of_memories_eq {i : Instr} {s t : State} (hregs : RegsKept (writtenRegs i) s t)
    (houtside : OutsideKept s t) (hcode : t.code = s.code) (hdata : t.data = s.data)
    (hflags : writesFlags i = false)
    (hsp : writesSp i = false → t.sp = s.sp)
    (hps : i ≠ .ioi → i ≠ .rti → t.ps = s.ps)
    (hpc : redirects i = false → t.pc = s.pc + BitVec.ofNat 16 i.length)
    (hclock : i ≠ .halt → i ≠ .wait → t.clock = s.clock) : ExecEffect i s t where
  frame := frame_of_memories_eq hregs hcode hdata houtside _
  sp := hsp
  flagsOnly h := by simp [hflags] at h
  ps _ := hps
  pc := hpc
  clock := hclock
  canonical := by
    unfold MemoriesCanonical
    rw [hcode, hdata]
    exact id

/-- A load: one register takes a value. -/
theorem execEffect_setReg {i : Instr} {r : Reg} (hregs : writtenRegs i = [r])
    (hflags : writesFlags i = false) (v : Byte) (s : State) :
    ExecEffect i s ((s.advance i.length).setReg r v) :=
  execEffect_of_memories_eq (hregs ▸ (frame_advance_setReg i.length r v s).1) ⟨rfl, rfl, rfl, rfl⟩
    rfl rfl hflags (fun _ => rfl) (fun _ _ => rfl) (fun _ => rfl) (fun _ _ => rfl)

/-- A jump: PC takes a value. -/
theorem execEffect_setPc {i : Instr} (hflags : writesFlags i = false) (hpc : redirects i = true)
    (target : Addr) (s : State) : ExecEffect i s (s.setPc target) :=
  execEffect_of_memories_eq (fun _ _ => rfl) ⟨rfl, rfl, rfl, rfl⟩ rfl rfl hflags (fun _ => rfl)
    (fun _ _ => rfl) (fun h => by simp [hpc] at h) (fun _ _ => rfl)

theorem execEffect_branch {i : Instr} (hflags : writesFlags i = false) (hpc : redirects i = true)
    (c : Cond) (off : Byte) (s : State) : ExecEffect i s (branch c off s) :=
  branch_eq_setPc c off s ▸ execEffect_setPc hflags hpc _ s

/-- An instruction that stores, and writes no general register and no flags. -/
theorem execEffect_of_stores {i : Instr} {s t : State} {stored : List Byte}
    (hregs : writtenRegs i = []) (hstores : writtenAddresses (furtherAccesses i s) = stored)
    (hframe : Frame [] stored s t) (hflags : writesFlags i = false)
    (hsp : writesSp i = false → t.sp = s.sp)
    (hps : i ≠ .ioi → i ≠ .rti → t.ps = s.ps)
    (hpc : redirects i = false → t.pc = s.pc + BitVec.ofNat 16 i.length)
    (hclock : t.clock = s.clock) (hcanonical : MemoriesCanonical s → MemoriesCanonical t) :
    ExecEffect i s t where
  frame := by rwa [hregs, hstores]
  sp := hsp
  flagsOnly h := by simp [hflags] at h
  ps _ := hps
  pc := hpc
  clock _ _ := hclock
  canonical := hcanonical

theorem memoriesCanonical_pushAll {s : State} (h : MemoriesCanonical s) :
    MemoriesCanonical s.pushAll := by
  have push {u : State} (hu : MemoriesCanonical u) (v : Byte) : MemoriesCanonical (u.pushByte v) :=
    State.pushByte_wf hu.1 hu.2 v
  exact push (push (push (push h _) _) _) _

/-- Every instruction completes in every state, and what it changes is what the tables say. -/
theorem exec_effect (i : Instr) (s : State) : ∃ t, exec i s = .next t ∧ ExecEffect i s t := by
  cases i with
  | move rn rm | add rn rm | addc rn rm | sub rn rm | and rn rm | or rn rm | xor rn rm
  | not rn | neg rn | dec rn | inc rn | shr rn | shla rn | shra rn | rol rn =>
    exact ⟨_, rfl, execEffect_putResult rfl rfl rfl _ s⟩
  | cmp rn rm =>
    exact ⟨_, Proofs.exec_cmp rn rm s,
      { frame := frame_of_memories_eq (fun _ _ => rfl) rfl rfl ⟨rfl, rfl, rfl, rfl⟩ _
        sp := fun _ => rfl
        flagsOnly := fun _ _ hk => getLsbD_setFlags_high _ _ _ _ hk
        ps := nofun
        pc := fun _ => rfl
        clock := fun _ _ => rfl
        canonical := id }⟩
  | beq off | bne off | bhs off | blo off | bmi off | bpl off | bvs off | bvc off
  | bhi off | bls off | bge off | blt off | bgt off | ble off | br off | bfalse off =>
    exact ⟨_, rfl, execEffect_branch rfl rfl _ off s⟩
  | ldi rn imm | ldsa rn imm | ld rn rm | ldc rn rm =>
    exact ⟨_, rfl, execEffect_setReg (i := _) rfl rfl _ s⟩
  | jmp target => exact ⟨_, Proofs.exec_jmp target s, execEffect_setPc rfl rfl target s⟩
  | pop rn =>
    exact ⟨_, Proofs.exec_pop rn s, execEffect_of_memories_eq ((frame_popReg rn s).1)
      ⟨rfl, rfl, rfl, rfl⟩ rfl rfl rfl nofun (fun _ _ => rfl) (fun _ => rfl) (fun _ _ => rfl)⟩
  | popall =>
    exact ⟨_, Proofs.exec_popall s, execEffect_of_memories_eq ((frame_popAll s).1)
      ⟨rfl, rfl, rfl, rfl⟩ rfl rfl rfl nofun (fun _ _ => rfl) (fun _ => rfl) (fun _ _ => rfl)⟩
  | addsp imm | setsp imm =>
    exact ⟨_, rfl, execEffect_of_memories_eq (fun _ _ => rfl) ⟨rfl, rfl, rfl, rfl⟩ rfl rfl rfl
      nofun (fun _ _ => rfl) (fun _ => rfl) (fun _ _ => rfl)⟩
  | rts | rti =>
    exact ⟨_, rfl, execEffect_of_memories_eq (fun _ _ => rfl) ⟨rfl, rfl, rfl, rfl⟩ rfl rfl rfl
      nofun (by simp) nofun (fun _ _ => rfl)⟩
  | halt | wait =>
    exact ⟨_, rfl, execEffect_of_memories_eq (fun _ _ => rfl) ⟨rfl, rfl, rfl, rfl⟩ rfl rfl rfl
      (fun _ => rfl) (fun _ _ => rfl) nofun (by simp)⟩
  | st rn rm =>
    exact ⟨_, Proofs.exec_st rn rm s, execEffect_of_stores rfl (by simp [furtherAccesses])
      ((frame_writeData _ _ s).trans (frame_advance 1 _)) rfl (by simp) (by simp)
      (by simp [Instr.length]) (by simp) fun h => State.writeData_wf h.1 h.2 _ _⟩
  | push rn =>
    exact ⟨_, Proofs.exec_push rn s, execEffect_of_stores rfl (by simp [furtherAccesses, stackAddressBelow])
      ((frame_pushByte _ s).trans (frame_advance 1 _)) rfl nofun (by simp)
      (by simp [Instr.length]) (by simp) fun h => State.pushByte_wf h.1 h.2 _⟩
  | pushall =>
    exact ⟨_, Proofs.exec_pushall s, execEffect_of_stores rfl (by simp [furtherAccesses])
      ((frame_pushAll s).trans (frame_advance 1 _)) rfl nofun (by simp)
      (by simp [Instr.length]) (by simp) memoriesCanonical_pushAll⟩
  | jsr target =>
    exact ⟨_, Proofs.exec_jsr target s, execEffect_of_stores rfl (by simp [furtherAccesses, stackAddressBelow])
      (((frame_advance 3 s).trans (frame_pushWord _ _)).trans (frame_setPc target _)) rfl nofun
      (by simp) nofun (by simp) fun h => State.pushWord_wf (s := s.advance 3) h.1 h.2 _⟩
  | ioi =>
    exact ⟨_, Proofs.exec_ioi s, execEffect_of_stores rfl (writtenAddresses_entryAccesses _ s)
      ((frame_advance 1 s).trans (frame_enterInterrupt _ _ _)) rfl nofun
      (by simp) nofun (by simp) fun h => enterInterrupt_wf _ _ (s := s.advance 1) h.1 h.2⟩
  | crc =>
    have hstores : writtenAddresses (furtherAccesses .crc s) = [s.sp, s.sp + 1] := by
      simp [furtherAccesses, stackAddress]
    exact ⟨_, Proofs.exec_crc s, execEffect_of_stores rfl hstores
      ((frame_writeData16 _ _ s).trans (frame_setPc _ _)) rfl (by simp) (by simp) nofun (by simp)
      fun h => State.writeData16_wf h.1 h.2 _ _⟩

end Sys2Proof.Machine
end

section
/-! The boundary (spec/60_exceptions.md R219, R228): the event and the instruction fetched in the terms of
the statements, the step by its event, and what a step without a reset is made of. -/

namespace Sys2Proof.Machine

/-! ## Events -/

theorem interruptAccepted_eq_true_iff (s : State) :
    s.interruptAccepted = true ↔ flagI s.ps = true ∧ s.input.irqReq = true := by
  simp [State.interruptAccepted]

theorem interruptAccepted_eq_false_iff (s : State) :
    s.interruptAccepted = false ↔ flagI s.ps = false ∨ s.input.irqReq = false := by
  simp [State.interruptAccepted, ← Bool.not_eq_true, imp_iff_not_or]

theorem boundaryEvent_eq_interrupt {s : State} (h : TakesInterrupt s) :
    boundaryEvent s = .interrupt s.input.irqVector := by
  obtain ⟨hreset, hclock, hrequest⟩ := h
  exact boundaryEvent_interrupt hreset hclock ((interruptAccepted_eq_true_iff s).mpr hrequest)

theorem boundaryEvent_eq_instruction {s : State} (h : RunsInstruction s) :
    boundaryEvent s = .instruction := by
  obtain ⟨hreset, hclock, hrequest⟩ := h
  exact boundaryEvent_instruction hreset hclock ((interruptAccepted_eq_false_iff s).mpr hrequest)

/-- What each event says of the state, for the three events that change the machine. -/
def EventMeaning (s : State) : Event → Prop
  | .reset img => s.input.reset = some img
  | .interrupt v => TakesInterrupt s ∧ v = s.input.irqVector
  | .instruction => RunsInstruction s
  | .halted | .waiting => True

theorem eventMeaning_boundaryEvent (s : State) : EventMeaning s (boundaryEvent s) := by
  cases hreset : s.input.reset with
  | some img =>
    rw [boundaryEvent_reset hreset]
    exact hreset
  | none =>
    cases haccepted : s.interruptAccepted with
    | true =>
      by_cases hclock : s.clock = .halted
      · rw [boundaryEvent_halted hreset hclock]
        trivial
      · rw [boundaryEvent_interrupt hreset hclock haccepted]
        exact ⟨⟨hreset, hclock, (interruptAccepted_eq_true_iff s).mp haccepted⟩, rfl⟩
    | false =>
      cases hclock : s.clock with
      | halted =>
        rw [boundaryEvent_halted hreset hclock]
        trivial
      | waiting =>
        rw [boundaryEvent_waiting hreset hclock haccepted]
        trivial
      | running =>
        rw [boundaryEvent_instruction hreset hclock haccepted]
        exact ⟨hreset, hclock, (interruptAccepted_eq_false_iff s).mp haccepted⟩

theorem eventMeaning_of_eq {s : State} {e : Event} (h : boundaryEvent s = e) : EventMeaning s e :=
  h ▸ eventMeaning_boundaryEvent s

/-! ## The instruction fetched -/

theorem fetchInstr_eq_some_iff (s : State) (i : Instr) :
    fetchInstr s = some i ↔
      ∃ rest, decode [s.readCode s.pc, s.readCode (s.pc + 1), s.readCode (s.pc + 2)] =
        .instr i rest := by
  rw [fetchInstr_eq_decode]
  generalize decode [s.readCode s.pc, s.readCode (s.pc + 1), s.readCode (s.pc + 2)] = answer
  cases answer <;> simp

theorem fetchInstr_eq_none_iff (s : State) :
    fetchInstr s = none ↔ UnassignedOpcode (s.readCode s.pc) := by
  rw [← decodeOpcode_eq_none_iff, fetchInstr]
  split <;> simp_all

theorem executes_iff (s : State) (i : Instr) :
    Executes s i ↔ RunsInstruction s ∧ fetchInstr s = some i := by
  rw [fetchInstr_eq_some_iff, Executes]

/-! ## The step by its event -/

theorem step_of_reset {s : State} {img : ResetImage} (h : s.input.reset = some img) :
    step s = .next (applyReset img s).tick := by
  rw [step, boundaryEvent_reset h]

theorem step_of_takesInterrupt {s : State} (h : TakesInterrupt s) :
    step s = .next (takeInterrupt s.input.irqVector s).tick := by
  rw [step, boundaryEvent_eq_interrupt h]

theorem step_of_executes {s t : State} {i : Instr} (h : Executes s i) (hexec : exec i s = .next t) :
    step s = .next t.tick := by
  obtain ⟨hruns, hfetch⟩ := (executes_iff s i).mp h
  rw [step, boundaryEvent_eq_instruction hruns]
  simp only [hfetch, hexec, toNextBoundary]

theorem step_of_unassigned {s : State} (h : RunsInstruction s)
    (hb : UnassignedOpcode (s.readCode s.pc)) :
    step s = .fault (.illegalInstruction (s.readCode s.pc) (s.pc + 1)) := by
  rw [step, boundaryEvent_eq_instruction h]
  simp only [(fetchInstr_eq_none_iff s).mpr hb]

/-- A clock that is halted, or waits with no request accepted, is stopped. -/
def Stopped (s : State) : Prop :=
  s.clock = .halted ∨ s.clock = .waiting ∧ (flagI s.ps = false ∨ s.input.irqReq = false)

theorem step_of_stopped {s : State} (hreset : s.input.reset = none) (h : Stopped s) :
    step s = .next s.tick := by
  rcases h with hclock | ⟨hclock, hrequest⟩
  · rw [step, boundaryEvent_halted hreset hclock]
  · rw [step, boundaryEvent_waiting hreset hclock ((interruptAccepted_eq_false_iff s).mpr hrequest)]

/-! ## A step without a reset -/

/-- The three things a step without a reset can be: nothing, an interrupt, an instruction. -/
inductive StepKind (s t : State) : Prop where
  | stopped (ht : t = s.tick)
  | interrupt (htakes : TakesInterrupt s) (ht : t = (takeInterrupt s.input.irqVector s).tick)
  | instruction (i : Instr) (u : State) (hexecutes : Executes s i) (hexec : exec i s = .next u)
      (heffect : ExecEffect i s u) (ht : t = u.tick)

theorem stepKind_of_step {s t : State} (h : step s = .next t) (hreset : s.input.reset = none) :
    StepKind s t := by
  rcases step_next_cases h with ⟨img, he, -⟩ | ⟨-, ht⟩ | ⟨v, he, ht⟩ | ⟨i, u, he, hfetch, hexec, ht⟩
  · cases hreset.symm.trans (eventMeaning_of_eq he)
  · exact .stopped ht
  · obtain ⟨htakes, rfl⟩ := eventMeaning_of_eq he
    exact .interrupt htakes ht
  · obtain ⟨u', hexec', heffect⟩ := exec_effect i s
    obtain rfl : u = u' := Host.Outcome.next.inj (hexec.symm.trans hexec')
    exact .instruction i u ((executes_iff s i).mpr ⟨eventMeaning_of_eq he, hfetch⟩) hexec heffect ht

theorem step_cases_reset {s t : State} (h : step s = .next t) :
    (∃ img, t = (applyReset img s).tick) ∨ StepKind s t := by
  cases hreset : s.input.reset with
  | some img => exact .inl ⟨img, (Host.Outcome.next.inj (h.symm.trans (step_of_reset hreset)))⟩
  | none => exact .inr (stepKind_of_step h hreset)

/-- A step that answers no next state answers the fault of an unassigned opcode byte. -/
theorem step_cases (s : State) :
    (∃ t, step s = .next t) ∨ RunsInstruction s ∧ UnassignedOpcode (s.readCode s.pc) := by
  cases he : boundaryEvent s with
  | reset img | halted | interrupt v | waiting =>
    left
    rw [step, he]
    exact ⟨_, rfl⟩
  | instruction =>
    have hruns : RunsInstruction s := eventMeaning_of_eq he
    cases hfetch : fetchInstr s with
    | none => exact .inr ⟨hruns, (fetchInstr_eq_none_iff s).mp hfetch⟩
    | some i =>
      obtain ⟨t, hexec, -⟩ := exec_effect i s
      exact .inl ⟨_, step_of_executes ((executes_iff s i).mpr ⟨hruns, hfetch⟩) hexec⟩

end Sys2Proof.Machine
end

section
/-! The inputs of the outside and the instructions: of all that is presented at a boundary an instruction
reads the vector number at most (spec/60_exceptions.md R212, spec/43_control.md R177). -/

namespace Sys2Proof.Machine

/-- The machine with another list of inputs. -/
def State.withInputs (s : State) (xs : List BoundaryInput) : State := { s with inputs := xs }

section

variable (s : State) (xs : List BoundaryInput)

theorem State.writeData_withInputs (a v : Byte) :
    (s.withInputs xs).writeData a v = (s.writeData a v).withInputs xs := by
  unfold State.writeData State.withInputs
  cases h : s.arch <;> simp only

theorem State.writeData16_withInputs (a : Byte) (w : Addr) :
    (s.withInputs xs).writeData16 a w = (s.writeData16 a w).withInputs xs := by
  simp only [State.writeData16, State.writeData_withInputs]

theorem State.pushByte_withInputs (v : Byte) :
    (s.withInputs xs).pushByte v = (s.pushByte v).withInputs xs :=
  State.writeData_withInputs (s.setSp (s.sp - 1)) xs _ v

theorem State.pushWord_withInputs (w : Addr) :
    (s.withInputs xs).pushWord w = (s.pushWord w).withInputs xs :=
  State.writeData16_withInputs (s.setSp (s.sp - 2)) xs _ w

theorem enterInterrupt_withInputs (v : BitVec 3) (ret : Addr) :
    enterInterrupt v ret (s.withInputs xs) = (enterInterrupt v ret s).withInputs xs := by
  simp only [enterInterrupt, State.pushWord_withInputs]
  rw [show (s.withInputs xs).ps = s.ps from rfl, State.pushByte_withInputs]
  rfl

theorem State.pushAll_withInputs : (s.withInputs xs).pushAll = s.pushAll.withInputs xs := by
  simp only [State.pushAll, State.pushByte_withInputs]
  rfl

theorem branch_withInputs (c : Cond) (off : Byte) :
    branch c off (s.withInputs xs) = (branch c off s).withInputs xs := by
  unfold branch
  cases h : condHolds c s.ps <;> simp [h, State.withInputs] <;> rfl

/-- An instruction carries the inputs through, whatever they are, if the vector number presented now is the
same. -/
theorem exec_withInputs (i : Instr) (hvector : (s.withInputs xs).input.irqVector = s.input.irqVector) :
    ∃ t, exec i s = .next t ∧ exec i (s.withInputs xs) = .next (t.withInputs xs) := by
  cases i with
  | beq off | bne off | bhs off | blo off | bmi off | bpl off | bvs off | bvc off
  | bhi off | bls off | bge off | blt off | bgt off | ble off | br off | bfalse off =>
    exact ⟨_, rfl, congrArg Host.Outcome.next (branch_withInputs s xs _ off)⟩
  | st rn rm =>
    refine ⟨_, Proofs.exec_st rn rm s, ?_⟩
    rw [Proofs.exec_st, State.writeData_withInputs]
    rfl
  | push rn =>
    refine ⟨_, Proofs.exec_push rn s, ?_⟩
    rw [Proofs.exec_push, State.pushByte_withInputs]
    rfl
  | pushall =>
    refine ⟨_, Proofs.exec_pushall s, ?_⟩
    rw [Proofs.exec_pushall, State.pushAll_withInputs]
    rfl
  | jsr target =>
    exact ⟨_, Proofs.exec_jsr target s, congrArg (fun u : State => Host.Outcome.next (u.setPc target))
      (State.pushWord_withInputs (s.advance 3) xs (s.pc + 3))⟩
  | ioi =>
    refine ⟨_, Proofs.exec_ioi s, ?_⟩
    rw [Proofs.exec_ioi, hvector]
    exact congrArg Host.Outcome.next (enterInterrupt_withInputs (s.advance 1) xs _ _)
  | crc =>
    refine ⟨_, Proofs.exec_crc s, ?_⟩
    rw [Proofs.exec_crc]
    exact congrArg (fun u : State => Host.Outcome.next (u.setPc (s.readData16 s.sp)))
      (State.writeData16_withInputs s xs s.sp (s.pc + 1))
  | move rn rm | add rn rm | addc rn rm | sub rn rm | and rn rm | or rn rm | xor rn rm | cmp rn rm
  | not rn | neg rn | dec rn | inc rn | shr rn | shla rn | shra rn | rol rn
  | ldi rn imm | ldsa rn imm | ld rn rm | ldc rn rm | pop rn | popall | addsp imm | setsp imm
  | jmp target | rts | rti | halt | wait => exact ⟨_, rfl, rfl⟩

end

/-- Two lists of inputs that differ in the request of this boundary only make no difference to a step with
I = 0. -/
theorem step_withInputs_of_masked {s : State} {x y : BoundaryInput} (hmasked : flagI s.ps = false)
    (hreset : x.reset = y.reset) (hvector : x.irqVector = y.irqVector) (rest : List BoundaryInput) :
    step (s.withInputs (x :: rest)) = step (s.withInputs (y :: rest)) := by
  cases hx : x.reset with
  | some img =>
    rw [step_of_reset (s := s.withInputs (x :: rest)) hx,
      step_of_reset (s := s.withInputs (y :: rest)) (hreset.symm.trans hx)]
    rfl
  | none =>
    have hy : y.reset = none := hreset.symm.trans hx
    by_cases hclock : s.clock = .running
    · have hrunsx : RunsInstruction (s.withInputs (x :: rest)) := ⟨hx, hclock, .inl hmasked⟩
      have hrunsy : RunsInstruction (s.withInputs (y :: rest)) := ⟨hy, hclock, .inl hmasked⟩
      cases hfetch : fetchInstr s with
      | none =>
        have hb := (fetchInstr_eq_none_iff s).mp hfetch
        rw [step_of_unassigned hrunsx hb, step_of_unassigned hrunsy hb]
        rfl
      | some i =>
        obtain ⟨t, hexecy, hexecx⟩ :=
          exec_withInputs (s.withInputs (y :: rest)) (x :: rest) i hvector
        obtain ⟨u, hexecu, heffect⟩ := exec_effect i (s.withInputs (y :: rest))
        obtain rfl : t = u := Host.Outcome.next.inj (hexecy.symm.trans hexecu)
        obtain ⟨-, -, -, -, (hinputs : t.inputs = y :: rest), -⟩ := heffect.frame
        rw [step_of_executes ((executes_iff _ i).mpr ⟨hrunsx, hfetch⟩) hexecx,
          step_of_executes ((executes_iff _ i).mpr ⟨hrunsy, hfetch⟩) hexecy]
        simp only [State.tick, State.withInputs, hinputs, List.tail_cons]
    · have hstopped (xs : List BoundaryInput) : Stopped (s.withInputs xs) := by
        cases hc : s.clock with
        | running => exact absurd hc hclock
        | halted => exact .inl hc
        | waiting => exact .inr ⟨hc, .inl hmasked⟩
      rw [step_of_stopped (s := s.withInputs (x :: rest)) hx (hstopped _),
        step_of_stopped (s := s.withInputs (y :: rest)) hy (hstopped _)]
      rfl

end Sys2Proof.Machine
end

section
/-! The step: which boundaries run an instruction, take an interrupt, rest or reset, and where a step
faults (spec/60_exceptions.md, spec/70_reset_and_hazards.md R241). -/

namespace Sys2Proof.Proofs

open Sys2Proof.Machine

theorem outsideAdvanced_tick {s t : State} (h : OutsideKept s t) : OutsideAdvanced s t.tick := by
  obtain ⟨harch, hldc, hinputs, hboundary⟩ := h
  exact ⟨harch, hldc, congrArg List.tail hinputs, congrArg (· + 1) hboundary⟩

theorem outsideKept_refl (s : State) : OutsideKept s s := ⟨rfl, rfl, rfl, rfl⟩

theorem outsideKept_takeInterrupt (v : BitVec 3) (s : State) :
    OutsideKept s (takeInterrupt v s) := by
  simp [OutsideKept, takeInterrupt]

/-- Settles O8: the outside is part of the frame of every instruction. -/
theorem everyInstructionCompletes : Obligations.EveryInstructionCompletes := by
  intro i s
  obtain ⟨t, hexec, heffect⟩ := exec_effect i s
  exact ⟨t, hexec, heffect.frame.2.2⟩

/-- Settles O6: the next boundary is the tick of the state that the instruction leaves, and the instruction
itself leaves the inputs and the index. -/
theorem stepRunsDecodedInstruction : Obligations.StepRunsDecodedInstruction := by
  intro s i h
  obtain ⟨t, hexec, heffect⟩ := exec_effect i s
  obtain ⟨-, -, -, -, hinputs, hboundary⟩ := heffect.frame
  refine ⟨t, hexec, ?_⟩
  rw [step_of_executes h hexec, State.tick, hinputs, hboundary]

/-- Settles O7: a step that does not go on stands at an unassigned opcode byte, where it faults. -/
theorem stepFaultsOnlyAtUnassigned : Obligations.StepFaultsOnlyAtUnassigned := by
  refine ⟨fun s f => ⟨fun hf => ?_, ?_⟩, fun s r hr => ?_⟩
  · rcases step_cases s with ⟨t, ht⟩ | ⟨hruns, hb⟩
    · cases hf.symm.trans ht
    · exact ⟨hruns, hb, Host.Outcome.fault.inj (hf.symm.trans (step_of_unassigned hruns hb))⟩
  · rintro ⟨hruns, hb, rfl⟩
    exact step_of_unassigned hruns hb
  · rcases step_cases s with ⟨t, ht⟩ | ⟨hruns, hb⟩
    · cases hr.symm.trans ht
    · cases hr.symm.trans (step_of_unassigned hruns hb)

/-- Settles O9: whatever the boundary does keeps the outside, and the step ends in a tick. -/
theorem stepAdvancesBoundary : Obligations.StepAdvancesBoundary := by
  intro s t h
  rcases step_cases_reset h with ⟨img, rfl⟩ | rfl | ⟨-, rfl⟩ | ⟨i, u, -, -, heffect, rfl⟩
  · exact outsideAdvanced_tick ⟨rfl, rfl, rfl, rfl⟩
  · exact outsideAdvanced_tick (outsideKept_refl s)
  · exact outsideAdvanced_tick (outsideKept_takeInterrupt _ s)
  · exact outsideAdvanced_tick heffect.frame.2.2

/-- Settles O11: with I = 0 the request is never accepted, and nothing else of the step reads it. -/
theorem maskedRequestHasNoEffect : Obligations.MaskedRequestHasNoEffect := by
  intro s x rest hmasked
  exact step_withInputs_of_masked (x := { x with irqReq := true }) (y := { x with irqReq := false })
    hmasked rfl rfl rest

/-- Settles O12: such a boundary is a tick. -/
theorem stoppedClockStep : Obligations.StoppedClockStep := by
  intro s hreset hstopped
  exact ⟨_, step_of_stopped hreset hstopped, ⟨rfl, rfl, rfl, rfl, rfl, rfl, rfl, rfl, rfl⟩,
    outsideAdvanced_tick (outsideKept_refl s)⟩

/-- Settles O14: the values of R42, and nothing is listed that would reset the machine. -/
theorem resetStateValues : Obligations.ResetStateValues := by
  refine ⟨fun r => ?_, rfl, rfl, rfl, rfl, rfl, rfl, rfl, .inl rfl⟩
  cases r <;> rfl

/-- Settles O16: the empty list is canonical. -/
theorem resetMemoriesCanonical : Obligations.ResetMemoriesCanonical :=
  ⟨Memory.wf_nil _, Memory.wf_nil _⟩

/-- A memory loaded from outside: of two entries for a cell the later one counts, and a cell without an
entry holds what it held. -/
theorem readCell_foldl_writeCell {size a : Nat} (ha : a < size) (cells : List Host.Cell) (m : Memory) :
    readCell (cells.foldl (fun m c => if c.1 < size then writeCell m c.1 c.2 else m) m) a =
      (cells.reverse.lookup a).getD (readCell m a) := by
  induction cells generalizing m with
  | nil => rfl
  | cons c rest ih =>
    obtain ⟨k, v⟩ := c
    rw [List.foldl_cons, ih, List.reverse_cons, List.lookup_append]
    by_cases hk : a = k
    · subst hk
      cases hl : rest.reverse.lookup a <;> simp [ha, List.lookup]
    · have hread : readCell (if k < size then writeCell m k v else m) a = readCell m a := by
        split
        · exact readCell_writeCell_of_ne m v hk
        · rfl
      have hlookup : List.lookup a [(k, v)] = none := by simp [List.lookup, beq_false_of_ne hk]
      rw [hread, hlookup, Option.or_none]

theorem readCell_loadImage {size a : Nat} (ha : a < size) (cells : List Host.Cell) :
    readCell (loadImage size cells) a = (cells.reverse.lookup a).getD Config.unlistedByte :=
  readCell_foldl_writeCell ha cells []

/-- Settles O13: the reset state with the images read cell by cell. -/
theorem resetOverridesEverything : Obligations.ResetOverridesEverything := by
  intro s img hreset
  refine ⟨_, step_of_reset hreset, fun r => ?_, rfl, rfl, rfl, rfl,
    outsideAdvanced_tick ⟨rfl, rfl, rfl, rfl⟩, fun c => ?_, fun a harch => ?_, fun a harch => ?_⟩
  · cases r <;> rfl
  · exact readCell_loadImage c.isLt img.code
  · rw [State.readData_tick]
    simp only [State.readData, applyReset, harch]
    exact readCell_loadImage a.isLt img.data
  · exact State.readData_of_vonNeumann (s := (applyReset img s).tick) harch a

end Sys2Proof.Proofs
end

section
/-! Interrupt entry and the memories: the frame on the stack, the vector, and the canonical form
(spec/60_exceptions.md R215 to R217, log 1). -/

namespace Sys2Proof.Machine

/-! ## What is kept, composed -/

/-- A list of exceptions may name more data cells than were stored to. -/
theorem MemoryKept.mono {xs ys : List Byte} {s t : State} (h : MemoryKept xs s t)
    (hsub : ∀ a, a ∈ xs → a ∈ ys) : MemoryKept ys s t := by
  obtain ⟨hdata, hcode⟩ := h
  refine ⟨fun a ha => hdata a (mt (hsub a) ha), fun c hc => hcode c fun harch hmem => ?_⟩
  obtain ⟨a, ha, rfl⟩ := List.mem_map.mp hmem
  exact hc harch (List.mem_map_of_mem (hsub a ha))

/-! ## The vector (R211) -/

theorem readCode_vectorAddress (s : State) (v : BitVec 3) {k : Nat} (hk : k < 4) :
    s.readCode (vectorAddress v + BitVec.ofNat 16 k) = vectorByte s v k := by
  have hv := v.isLt
  refine congrArg s.readCode (BitVec.eq_of_toNat_eq ?_)
  rw [vectorAddress_add_toNat v k hk, BitVec.toNat_ofNat]
  omega

/-- PC comes from bytes 1 and 0 of the vector. -/
theorem readCode16_vectorAddress (s : State) (v : BitVec 3) :
    s.readCode16 (vectorAddress v) = concat16 (vectorByte s v 1) (vectorByte s v 0) := by
  rw [← readCode_vectorAddress s v (by omega : 1 < 4), ← readCode_vectorAddress s v (by omega : 0 < 4),
    BitVec.add_zero]
  rfl

/-! ## Entry and return (R215, R217) -/

theorem entryEffect_enterInterrupt (v : BitVec 3) (ret : Addr) (s : State) :
    EntryEffect v ret s (enterInterrupt v ret s) := by
  obtain ⟨hregs, hmemory, -⟩ := frame_enterInterrupt v ret s
  have h23 : s.sp - 2 ≠ s.sp - 3 := by bv_omega
  have h21 : s.sp - 2 ≠ s.sp - 1 := by bv_omega
  have h13 : s.sp - 1 ≠ s.sp - 3 := by bv_omega
  refine ⟨enterInterrupt_sp v ret s, ?_, ?_, ?_, ?_, ?_, hregs, hmemory.mono ?_⟩
  · rw [enterInterrupt_readData, if_pos rfl]
  · rw [enterInterrupt_readData, if_neg h23, if_neg h21, if_pos rfl]
  · rw [enterInterrupt_readData, if_neg h13, if_pos rfl]
  · rw [enterInterrupt_pc, readCode16_vectorAddress]
  · rw [enterInterrupt_ps]
    exact readCode_vectorAddress s v (by omega : 2 < 4)
  · simp only [List.mem_cons]
    tauto

/-- `rti` on a frame that lies below `sp` as an entry lays it: PS lowest, then the return address. -/
theorem returnFromInterrupt_of_stackFrame {t : State} {sp ps : Byte} {ret : Addr}
    (hsp : t.sp = sp - 3) (hps : t.readData (sp - 3) = ps) (hlow : t.readData (sp - 2) = lo ret)
    (hhigh : t.readData (sp - 1) = hi ret) :
    (returnFromInterrupt t).pc = ret ∧ (returnFromInterrupt t).ps = ps ∧
      (returnFromInterrupt t).sp = sp := by
  have h2 : sp - 3 + 1 = sp - 2 := by bv_omega
  have h1 : sp - 2 + 1 = sp - 1 := by bv_omega
  refine ⟨?_, ?_, ?_⟩
  · rw [returnFromInterrupt_pc, hsp, h2, State.readData16, h1, hlow, hhigh, concat16_hi_lo]
  · rw [returnFromInterrupt_ps, hsp, hps]
  · rw [returnFromInterrupt_sp, hsp]
    exact BitVec.sub_add_cancel ..

theorem returnFromInterrupt_of_entryEffect {v : BitVec 3} {ret : Addr} {s t : State}
    (h : EntryEffect v ret s t) :
    (returnFromInterrupt t).pc = ret ∧ (returnFromInterrupt t).ps = s.ps ∧
      (returnFromInterrupt t).sp = s.sp := by
  obtain ⟨hsp, hps, hlow, hhigh, -⟩ := h
  exact returnFromInterrupt_of_stackFrame hsp hps hlow hhigh

/-! ## The canonical form (log 1) -/

theorem memoriesCanonical_takeInterrupt (v : BitVec 3) {s : State} (h : MemoriesCanonical s) :
    MemoriesCanonical (takeInterrupt v s) :=
  enterInterrupt_wf v s.pc h.1 h.2

theorem memoriesCanonical_applyReset (img : ResetImage) (s : State) :
    MemoriesCanonical (applyReset img s) := by
  refine ⟨Memory.wf_loadImage _ _, ?_⟩
  simp only [applyReset]
  split
  · exact Memory.wf_loadImage _ _
  · exact Memory.wf_nil _

end Sys2Proof.Machine
end

section
/-! What a step may change, from the inversion of a step and the effect of an instruction
(spec/10_state.md, spec/20_memory.md R55, spec/60_exceptions.md). -/

namespace Sys2Proof.Proofs

open Sys2Proof.Machine

/-- Settles O15: a tick leaves the memories, and each event keeps the form. -/
theorem stepKeepsMemoriesCanonical : Obligations.StepKeepsMemoriesCanonical := by
  intro s t hcanonical h
  rcases step_cases_reset h with ⟨img, rfl⟩ | rfl | ⟨-, rfl⟩ | ⟨i, u, -, -, heffect, rfl⟩
  · exact memoriesCanonical_applyReset img s
  · exact hcanonical
  · exact memoriesCanonical_takeInterrupt s.input.irqVector hcanonical
  · exact heffect.canonical hcanonical

/-- Settles O10: the step is the entry with the clock running afterwards. -/
theorem interruptIsTaken : Obligations.InterruptIsTaken := by
  intro s h
  exact ⟨_, step_of_takesInterrupt h, entryEffect_enterInterrupt _ s.pc s, rfl,
    outsideAdvanced_tick (outsideKept_takeInterrupt _ s)⟩

/-- Settles O24: the return finds the frame of the entry, and stores nothing itself. -/
theorem returnUndoesInterrupt : Obligations.ReturnUndoesInterrupt := by
  intro s h
  have hentry : EntryEffect s.input.irqVector s.pc s (takeInterrupt s.input.irqVector s).tick :=
    entryEffect_enterInterrupt _ s.pc s
  obtain ⟨hpc, hps, hsp⟩ := returnFromInterrupt_of_entryEffect hentry
  obtain ⟨-, -, -, -, -, -, hregs, hmemory⟩ := hentry
  exact ⟨_, _, step_of_takesInterrupt h, exec_rti _, hpc, hps, hsp, rfl, hregs, hmemory⟩

/-- The data cells that the boundary of each kind of step stores to, read from the access lists of R55. -/
theorem memoryKept_of_step {s t : State} (h : step s = .next t) (hreset : s.input.reset = none) :
    MemoryKept (writtenAddresses (boundaryAccesses s)) s t := by
  rcases stepKind_of_step h hreset with rfl | ⟨htakes, rfl⟩ | ⟨i, u, hexecutes, -, heffect, rfl⟩
  · exact memoryKept_of_eq rfl rfl rfl _
  · obtain ⟨-, hmemory, -⟩ := frame_enterInterrupt s.input.irqVector s.pc s
    rw [boundaryAccesses, boundaryEvent_eq_interrupt htakes]
    simp only [writtenAddresses_entryAccesses]
    exact hmemory
  · obtain ⟨hruns, hfetch⟩ := (executes_iff s i).mp hexecutes
    obtain ⟨-, hmemory, -⟩ := heffect.frame
    rw [boundaryAccesses, boundaryEvent_eq_instruction hruns]
    simp only [hfetch, writtenAddresses_instrAccesses]
    exact hmemory

/-- Settles O17: a cell that changes is none of those that the boundary keeps. -/
theorem stepWritesOnlyListedCells : Obligations.StepWritesOnlyListedCells := by
  intro s t h hreset
  obtain ⟨hdata, hcode⟩ := memoryKept_of_step h hreset
  refine ⟨fun a hchanged => by_contra fun ha => hchanged (hdata a ha), fun c hchanged => ?_⟩
  have hlisted := mt (hcode c) hchanged
  obtain ⟨harch, hmem⟩ := Classical.not_imp.mp hlisted
  obtain ⟨a, ha, rfl⟩ := List.mem_map.mp (not_not.mp hmem)
  exact ⟨harch, a, ha, rfl⟩

/-- Settles O18: an entry and a stopped boundary leave the register file. -/
theorem stepWritesOnlyNamedRegisters : Obligations.StepWritesOnlyNamedRegisters := by
  intro s t r h hreset hchanged
  rcases stepKind_of_step h hreset with rfl | ⟨-, rfl⟩ | ⟨i, u, hexecutes, -, heffect, rfl⟩
  · exact absurd rfl hchanged
  · obtain ⟨hregs, -, -⟩ := frame_enterInterrupt s.input.irqVector s.pc s
    exact absurd (hregs r List.not_mem_nil) hchanged
  · obtain ⟨hregs, -, -⟩ := heffect.frame
    exact ⟨i, hexecutes, by_contra fun hr => hchanged (hregs r hr)⟩

/-- Settles O19: a stopped boundary leaves SP, and so does an instruction that is not in the list. -/
theorem stepWritesStackPointerOnlyBy : Obligations.StepWritesStackPointerOnlyBy := by
  intro s t h hreset hchanged
  rcases stepKind_of_step h hreset with rfl | ⟨htakes, -⟩ | ⟨i, u, hexecutes, -, heffect, rfl⟩
  · exact absurd rfl hchanged
  · exact .inl htakes
  · refine .inr ⟨i, hexecutes, by_contra fun hi => hchanged ?_⟩
    exact heffect.sp (Bool.eq_false_of_not_eq_true hi)

/-- Settles O20: an instruction other than `ioi` and `rti` writes flags only or leaves PS. -/
theorem stepWritesStatusOnlyBy : Obligations.StepWritesStatusOnlyBy := by
  intro s t h hreset
  rcases stepKind_of_step h hreset with rfl | ⟨htakes, -⟩ | ⟨i, u, hexecutes, -, heffect, rfl⟩
  · exact ⟨fun _ _ hchanged => absurd rfl hchanged, fun hchanged => absurd rfl hchanged⟩
  · exact ⟨fun _ _ _ => .inl htakes, fun _ => .inl htakes⟩
  · by_cases hioi : i = .ioi
    · subst hioi
      exact ⟨fun _ _ _ => .inr (.inl hexecutes), fun _ => .inr ⟨_, hexecutes, .inl rfl⟩⟩
    by_cases hrti : i = .rti
    · subst hrti
      exact ⟨fun _ _ _ => .inr (.inr hexecutes), fun _ => .inr ⟨_, hexecutes, .inr (.inl rfl)⟩⟩
    cases hflags : writesFlags i with
    | true =>
      exact ⟨fun k hk hchanged => absurd (heffect.flagsOnly hflags k hk) hchanged,
        fun _ => .inr ⟨i, hexecutes, .inr (.inr hflags)⟩⟩
    | false =>
      have hps : u.ps = s.ps := heffect.ps hflags hioi hrti
      exact ⟨fun k _ hchanged => absurd (congrArg (·.getLsbD k) hps) hchanged,
        fun hchanged => absurd hps hchanged⟩

/-- Every instruction is as long as its encoding. -/
theorem length_encode (i : Instr) : (encode i).length = i.length := by
  cases i <;> rfl

/-- Settles O21: the table of lengths is that of the encodings. -/
theorem plainInstructionsAdvance : Obligations.PlainInstructionsAdvance := by
  intro s t i hexecutes hplain h
  obtain ⟨u, hexec, heffect⟩ := exec_effect i s
  obtain rfl : t = u.tick := Host.Outcome.next.inj (h.symm.trans (step_of_executes hexecutes hexec))
  rw [State.tick_pc, heffect.pc hplain, length_encode, BitVec.toNat_add, BitVec.toNat_ofNat,
    Nat.add_mod_mod]

/-- Settles O22: an entry leaves the clock running, which is a change only for a wait. -/
theorem clockTransitions : Obligations.ClockTransitions := by
  intro s t h hreset hchanged
  rcases stepKind_of_step h hreset with rfl | ⟨htakes, rfl⟩ | ⟨i, u, hexecutes, hexec, heffect, rfl⟩
  · exact absurd rfl hchanged
  · refine .inr (.inr ⟨rfl, ?_, htakes⟩)
    obtain ⟨-, hnotHalted, -⟩ := htakes
    cases hclock : s.clock with
    | running => exact absurd hclock.symm hchanged
    | halted => exact absurd hclock hnotHalted
    | waiting => rfl
  · by_cases hhalt : i = .halt
    · subst hhalt
      obtain rfl : s.setClock .halted = u := Host.Outcome.next.inj hexec
      exact .inl ⟨rfl, hexecutes⟩
    by_cases hwait : i = .wait
    · subst hwait
      obtain rfl : s.setClock .waiting = u := Host.Outcome.next.inj hexec
      exact .inr (.inl ⟨rfl, hexecutes⟩)
    exact absurd (heffect.clock hhalt hwait) hchanged

/-! ## Stopped for ever (spec/70_reset_and_hazards.md R246, spec/44_clock_control.md R192) -/

theorem sameMachine_refl (s : State) : SameMachine s s := ⟨rfl, rfl, rfl, rfl, rfl, rfl, rfl, rfl, rfl⟩

theorem reset_eq_none_of_noResetListed {s : State} (h : NoResetListed s) : s.input.reset = none := by
  cases hinputs : s.inputs with
  | nil => simp [State.input, hinputs, unlistedInput]
  | cons x rest =>
    have hx : x.reset = none := h x (by simp [hinputs])
    simp [State.input, hinputs, hx]

theorem noResetListed_tick {s : State} (h : NoResetListed s) : NoResetListed s.tick :=
  fun x hx => h x (List.mem_of_mem_tail hx)

theorem run_succ_of_step (n : Nat) {s u : State} (h : core.step s = .next u) :
    core.run (n + 1) s = core.run n u := by
  simp only [Host.Core.run]
  rw [h]

/-- A machine that stays stopped whatever is requested keeps everything a program can observe. -/
theorem run_of_stopped (n : Nat) {s : State} (hreset : NoResetListed s)
    (hstopped : Ended s ∨ Hung s) : ∃ t, core.run n s = .next t ∧ SameMachine s t := by
  induction n generalizing s with
  | zero => exact ⟨s, rfl, sameMachine_refl s⟩
  | succ n ih =>
    have hstep : core.step s = .next s.tick :=
      step_of_stopped (reset_eq_none_of_noResetListed hreset)
        (hstopped.imp id fun ⟨hclock, hmasked⟩ => ⟨hclock, .inl hmasked⟩)
    obtain ⟨t, hrun, hsame⟩ := ih (noResetListed_tick hreset) hstopped
    exact ⟨t, (run_succ_of_step n hstep).trans hrun, hsame⟩

/-- Settles O23: that the clock and I are kept is part of what a program can observe. -/
theorem endAndHangPersist : Obligations.EndAndHangPersist := by
  intro n s hreset
  refine ⟨fun hended => ?_, fun hhung => ?_⟩
  · obtain ⟨t, hrun, hsame⟩ := run_of_stopped n hreset (.inl hended)
    obtain ⟨-, -, -, -, hclock, -⟩ := id hsame
    exact ⟨t, hrun, hsame, hclock.trans hended⟩
  · obtain ⟨t, hrun, hsame⟩ := run_of_stopped n hreset (.inr hhung)
    obtain ⟨-, -, hps, -, hclock, -⟩ := id hsame
    obtain ⟨hwaiting, hmasked⟩ := hhung
    have htwaiting : t.clock = .waiting := hclock.trans hwaiting
    refine ⟨t, hrun, hsame, ⟨htwaiting, by rw [hps, hmasked]⟩, fun hended => ?_⟩
    cases htwaiting.symm.trans hended

end Sys2Proof.Proofs
end

section
/-! Rules for the rest of the single instructions: what the subtractions, the logic operations, the shifts
and the branches compute (spec/42_arithmetic.md R140 to R156, spec/43_control.md R170). -/

namespace Sys2Proof.Machine

/-! ## Subtractions (R140) -/

theorem sub8_v_eq_decide (a b : Byte) :
    (sub8 a b).v =
      decide (signed8 a - signed8 b < -128 ∨ 127 < signed8 a - signed8 b) := by
  rw [Bool.eq_iff_iff, sub8_v, decide_eq_true_iff]

theorem sub8_res_toNat (a b : Byte) :
    ((sub8 a b).res.toNat : Int) = ((a.toNat : Int) - b.toNat) % 256 := by
  have ha := a.isLt
  have hb := b.isLt
  rw [sub8_res, BitVec.toNat_sub]
  omega

/-- A difference is zero exactly when the operands are equal. -/
theorem sub8_res_toNat_eq_zero_iff (a b : Byte) : (sub8 a b).res.toNat = 0 ↔ a = b := by
  have ha := a.isLt
  have hb := b.isLt
  rw [sub8_res, BitVec.toNat_sub, ← BitVec.toNat_inj]
  omega

/-- The flags of a subtraction, by the order of the operands. -/
theorem flagsAre_sub8 {s t : State} (a b : Byte)
    (hps : t.ps = setFlags s.ps (sub8 a b).c (sub8 a b).v (sub8 a b).res) :
    FlagsAre (decide (b.toNat ≤ a.toNat))
      (decide (signed8 a - signed8 b < -128 ∨ 127 < signed8 a - signed8 b))
      (decide (a = b)) ((a - b).getLsbD 7) s t := by
  have hzero : ((sub8 a b).res == 0) = decide (a = b) :=
    decide_eq_decide.mpr (BitVec.toNat_inj.symm.trans (sub8_res_toNat_eq_zero_iff a b))
  rw [← sub8_c, ← sub8_v_eq_decide, ← hzero, ← sub8_res]
  exact flagsAre_setFlags hps

theorem signed8_inj (a b : Byte) : signed8 a = signed8 b ↔ a = b := by
  rw [signed8_eq_toInt, signed8_eq_toInt, BitVec.toInt_inj]

/-- The sign of a difference as a number. -/
theorem getLsbD_seven_sub (a b : Byte) :
    (a - b).getLsbD 7 = decide (128 ≤ ((a.toNat : Int) - b.toNat) % 256) := by
  rw [← sub8_res_toNat, ← sub8_res, getLsbD_seven, decide_eq_decide]
  omega

/-- Without overflow the sign of the difference tells the signed order, with overflow its opposite does
(R173). -/
theorem getLsbD_seven_sub_bne_overflow (a b : Byte) :
    ((a - b).getLsbD 7 != decide (signed8 a - signed8 b < -128 ∨ 127 < signed8 a - signed8 b)) =
      decide (signed8 a < signed8 b) := by
  have ha := a.isLt
  have hb := b.isLt
  rw [getLsbD_seven_sub, Bool.eq_iff_iff, bne_iff_ne, ne_eq, decide_eq_decide, decide_eq_true_iff]
  simp only [signed8]
  omega

/-! ## Shifts (R155, R156) -/

theorem shr8_res_getLsbD_seven (x : Byte) (cin : Bool) : (shr8 x cin).res.getLsbD 7 = cin := by
  have hx := x.isLt
  rw [getLsbD_seven, shr8, BitVec.toNat_ofNat]
  cases cin <;> simp [bitValue] <;> omega

/-- Each other bit goes one place right. -/
theorem shr8_res_getLsbD (x : Byte) (cin : Bool) {k : Nat} (hk : k < 7) :
    (shr8 x cin).res.getLsbD k = x.getLsbD (k + 1) := by
  have hhalf : x.toNat / 2 < 2 ^ 7 := by have hx := x.isLt; omega
  calc (shr8 x cin).res.getLsbD k
      = (2 ^ 7 * bitValue cin + x.toNat / 2).testBit k := by
        simp only [shr8, BitVec.getLsbD_ofNat, show k < 8 by omega, decide_true, Bool.true_and,
          Nat.mul_comm (bitValue cin)]
        rfl
    _ = (x.toNat / 2).testBit k := by rw [Nat.testBit_two_pow_mul_add _ hhalf, if_pos hk]
    _ = x.getLsbD (k + 1) := (Nat.testBit_succ x.toNat k).symm

/-- Each bit goes one place left, bit 7 to place 0. -/
theorem rol8_res_getLsbD (x : Byte) {k : Nat} (hk : k < 8) :
    (rol8 x).res.getLsbD ((k + 1) % 8) = x.getLsbD k := by
  have hx := x.isLt
  have hseven := bitValue_getLsbD_seven x
  have heven : x.toNat * 2 % 256 = 2 * (x.toNat % 128) := by omega
  by_cases hlast : k = 7
  · subst hlast
    calc (rol8 x).res.getLsbD 0
        = decide ((x.toNat * 2 % 256 + bitValue (x.getLsbD 7)) % 2 = 1) := by
          rw [rol8, BitVec.getLsbD_ofNat, Nat.testBit_zero]
          rfl
      _ = x.getLsbD 7 := by
          rw [hseven, heven, getLsbD_seven, decide_eq_decide]
          omega
  · have hrest : (x.toNat * 2 % 256 + bitValue (x.getLsbD 7)) / 2 = x.toNat % 2 ^ 7 := by
      rw [hseven, heven]
      omega
    calc (rol8 x).res.getLsbD ((k + 1) % 8)
        = (x.toNat * 2 % 256 + bitValue (x.getLsbD 7)).testBit (k + 1) := by
          rw [Nat.mod_eq_of_lt (by omega : k + 1 < 8), rol8, BitVec.getLsbD_ofNat,
            decide_eq_true (by omega : k + 1 < 8), Bool.true_and]
      _ = (x.toNat % 2 ^ 7).testBit k := by rw [Nat.testBit_succ, hrest]
      _ = x.getLsbD k := by
          rw [Nat.testBit_mod_two_pow, decide_eq_true (by omega : k < 7), Bool.true_and]
          rfl

/-! ## Branches (R170) -/

theorem sext16_toInt (off : Byte) : (sext16 off).toInt = signed8 off := by
  rw [signed8_eq_toInt, sext16, BitVec.toInt_signExtend_of_le (by omega)]

/-- The target of a taken branch as a number, modulo 65536. -/
theorem add_sext16_toNat (a : Addr) (off : Byte) :
    ((a + sext16 off).toNat : Int) = ((a.toNat : Int) + signed8 off) % 65536 := by
  have h := sext16_toInt off
  have hlt := (sext16 off).isLt
  rw [BitVec.toInt_eq_toNat_cond] at h
  rw [BitVec.toNat_add]
  split at h <;> omega

/-- A branch whose test has the outcome `taken`. -/
theorem branchOutcome_branchInstr {c : Cond} {taken : Bool} {s : State}
    (htest : condHolds c s.ps = taken) (off : Byte) :
    BranchOutcome taken (Asm.branchInstr c off) off s := by
  have hpc : (branch c off s).pc = if taken then s.pc + 2 + sext16 off else s.pc + 2 := by
    rw [branch_pc, htest]
  have htwo : (s.pc + 2).toNat = (s.pc.toNat + 2) % 65536 := BitVec.toNat_add ..
  refine ⟨_, Proofs.exec_branchInstr c off s, ?_, ?_, ?_, ?_, frame_branch c off s⟩
  · rw [hpc]
    cases taken
    · simp only [Bool.false_eq_true, if_false, htwo]
      omega
    · simp only [if_true, add_sext16_toNat, htwo]
      omega
  all_goals rw [branch_eq_setPc]; rfl

end Sys2Proof.Machine
end

section
/-! The remaining memory access, arithmetic, logic and shift instructions (spec/40_memory_access.md,
spec/42_arithmetic.md). -/

namespace Sys2Proof.Proofs

open Sys2Proof.Machine

/-! ## Memory access (R122, R123) -/

/-- The upper byte of the code address counts in units of 256. -/
theorem codeAddress_eq_ofNat (s : State) (rn : Reg) :
    codeAddress s rn = BitVec.ofNat 16 (s.ldcHigh.toNat * 256 + (s.reg rn).toNat) := by
  rw [codeAddress, ← concat16_toNat, BitVec.ofNat_toNat, BitVec.setWidth_eq]

/-- Settles O27: the value of the one register written is the code cell read in the state before. -/
theorem loadCodeReadsCell : Obligations.LoadCodeReadsCell := by
  intro rn rm s
  refine ⟨_, exec_ldc rn rm s, ?_, rfl, rfl, advanced_of_pc_eq rfl rfl, frame_advance_setReg 1 rm _ s⟩
  rw [State.reg_setReg_same, codeAddress_eq_ofNat]

/-- Settles O28: the store is to one data cell, which under `arch = VonNeumann` is a code cell. -/
theorem storeDataWritesCell : Obligations.StoreDataWritesCell := by
  intro rn rm s
  refine ⟨_, exec_st rn rm s, State.readData_writeData_same .., fun harch => ?_,
    State.writeData_sp .., State.writeData_ps .., advanced_of_pc_eq (by simp) (by simp),
    (frame_writeData _ _ s).trans (frame_advance 1 _)⟩
  rw [State.readCode_advance, State.readCode_writeData, if_pos ⟨harch, rfl⟩]

/-! ## Logic results (R141, R149 to R151) -/

/-- Settles O35: the source is read before the write, so `rn = rm` is no special case. -/
theorem moveCopiesFirstToSecond : Obligations.MoveCopiesFirstToSecond := by
  intro rn rm s
  refine ⟨_, exec_move rn rm s, ?_⟩
  simp only [State.reg_putResult_same]
  exact ⟨rfl, flagsAre_putResult s rm rfl rfl, putResult_keeps s rm _⟩

/-- Settles O43: the results bit by bit; a value differs from itself in no bit. -/
theorem andOrXorWriteBitwiseResult : Obligations.AndOrXorWriteBitwiseResult := by
  intro rn rm s
  refine ⟨⟨_, exec_and rn rm s, ?_⟩, ⟨_, exec_or rn rm s, ?_⟩, ⟨_, exec_xor rn rm s, ?_⟩⟩ <;>
    simp only [State.reg_putResult_same]
  · exact ⟨fun _ => BitVec.getLsbD_and, flagsAre_putResult s rm rfl rfl, putResult_keeps s rm _⟩
  · exact ⟨fun _ => BitVec.getLsbD_or, flagsAre_putResult s rm rfl rfl, putResult_keeps s rm _⟩
  · have hself (h : rn = rm) : s.reg rn ^^^ s.reg rm = 0 := h ▸ BitVec.xor_self
    exact ⟨fun _ => BitVec.getLsbD_xor, hself, flagsAre_putResult s rm rfl rfl,
      putResult_keeps s rm _⟩

/-! ## Subtractions (R144 to R146, R148, R173) -/

theorem flagsAre_sub (rn rm : Reg) (s : State) :
    FlagsAre (decide ((s.reg rm).toNat ≤ (s.reg rn).toNat))
      (decide (signed8 (s.reg rn) - signed8 (s.reg rm) < -128 ∨
        127 < signed8 (s.reg rn) - signed8 (s.reg rm)))
      (decide (s.reg rn = s.reg rm)) ((s.reg rn - s.reg rm).getLsbD 7) s
      ((s.advance 1).putResult rm (sub8 (s.reg rn) (s.reg rm))) :=
  flagsAre_sub8 _ _ rfl

/-- Settles O38: both operands are read before the write. -/
theorem subtractWritesDifferenceAndFlags : Obligations.SubtractWritesDifferenceAndFlags := by
  intro rn rm s
  refine ⟨_, exec_sub rn rm s, ?_⟩
  rw [State.reg_putResult_same]
  refine ⟨sub8_res_toNat _ _, ?_, putResult_keeps s rm _⟩
  rw [sub8_res]
  exact flagsAre_sub rn rm s

/-- Settles O39: PS takes the flags of the same computation, and no register takes the result. -/
theorem compareSetsFlagsOnly : Obligations.CompareSetsFlagsOnly := by
  intro rn rm s
  exact ⟨_, _, exec_cmp rn rm s, exec_sub rn rm s, rfl, flagsAre_sub rn rm s, rfl,
    advanced_of_pc_eq rfl rfl,
    frame_of_memories_eq (fun _ _ => rfl) rfl rfl ⟨rfl, rfl, rfl, rfl⟩ []⟩

/-- Settles O40: each condition is read from the flags of the subtraction. The signed order is decided by
N and V together: without overflow N is the sign of the difference, with overflow its opposite. -/
theorem conditionsAfterCompare : Obligations.ConditionsAfterCompare := by
  intro i rn rm s hi
  obtain ⟨t, hexec, hps⟩ : ∃ t, exec i s = .next t ∧
      t.ps = setFlags s.ps (sub8 (s.reg rn) (s.reg rm)).c (sub8 (s.reg rn) (s.reg rm)).v
        (sub8 (s.reg rn) (s.reg rm)).res := by
    rcases hi with rfl | rfl
    · exact ⟨_, exec_cmp rn rm s, rfl⟩
    · exact ⟨_, exec_sub rn rm s, rfl⟩
  obtain ⟨hC, hV, hZ, hN, -⟩ := flagsAre_sub8 (s.reg rn) (s.reg rm) hps
  have hlt : (flagN t.ps != flagV t.ps) = decide (signed8 (s.reg rn) < signed8 (s.reg rm)) := by
    rw [hN, hV, getLsbD_seven_sub_bne_overflow]
  have hge : (flagN t.ps == flagV t.ps) = !decide (signed8 (s.reg rn) < signed8 (s.reg rm)) := by
    rw [← hlt, bne, Bool.not_not]
  rw [getLsbD_seven_sub] at hN
  have hequal : s.reg rn = s.reg rm ↔ (s.reg rn).toNat = (s.reg rm).toNat := BitVec.toNat_inj.symm
  have hsigned := (signed8_inj (s.reg rn) (s.reg rm)).symm
  refine ⟨t, hexec, ?_⟩
  simp only [condHolds, hlt, hge]
  simp only [hC, hZ, hN, hV, Bool.and_eq_true, Bool.or_eq_true,
    Bool.not_eq_true', decide_eq_true_eq, decide_eq_false_iff_not]
  refine ⟨trivial, trivial, trivial, ?lo, ?hi, ?ls, ?ge, trivial, ?gt, ?le, trivial, ?pl, trivial, ?vc⟩
  case hi | ls => rw [hequal]; omega
  case gt | le => rw [hsigned]; omega
  all_goals omega

/-! ## Subtraction from 0, addition and subtraction of 1 (R146 to R148) -/

/-- The difference to 0 has C only without a borrow, for 0, and V only where the negated number is none of
a byte, for -128. -/
theorem sub8_zero_c (x : Byte) : (sub8 0x00 x).c = decide (x = 0x00) := by
  rw [sub8_c, decide_eq_decide, ← BitVec.toNat_inj]
  exact Nat.le_zero

theorem sub8_zero_v (x : Byte) : (sub8 0x00 x).v = decide (x = 0x80) := by
  have hx := x.isLt
  rw [sub8_v_eq_decide, decide_eq_decide, ← BitVec.toNat_inj]
  simp only [signed8, BitVec.reduceToNat]
  omega

/-- Settles O41: the subtraction from 0; -128 has no negative in a byte and is its own result. -/
theorem negateWritesZeroMinusRegister : Obligations.NegateWritesZeroMinusRegister := by
  intro rn s
  have hx := (s.reg rn).isLt
  have hres : (sub8 0x00 (s.reg rn)).res.toNat = (256 - (s.reg rn).toNat) % 256 := by
    rw [sub8_res, BitVec.toNat_sub]
    rfl
  have hsigned (h : s.reg rn ≠ 0x80) :
      signed8 (sub8 0x00 (s.reg rn)).res = -signed8 (s.reg rn) := by
    rw [ne_eq, ← BitVec.toNat_inj] at h
    simp only [signed8, hres, BitVec.reduceToNat] at h ⊢
    omega
  have hlowest (h : s.reg rn = 0x80) : (sub8 0x00 (s.reg rn)).res = 0x80 := by
    rw [h]
    rfl
  refine ⟨_, exec_neg rn s, ?_⟩
  simp only [State.reg_putResult_same]
  exact ⟨hres, hsigned, hlowest, flagsAre_putResult s rn (sub8_zero_c _) (sub8_zero_v _),
    putResult_keeps s rn _⟩

theorem add8_one_c (x : Byte) : (add8 x 0x01 false).c = decide (x = 0xFF) := by
  have hx := x.isLt
  rw [add8_c, decide_eq_decide, ← BitVec.toNat_inj, bitValue_false]
  simp only [BitVec.reduceToNat]
  omega

theorem add8_one_v (x : Byte) : (add8 x 0x01 false).v = decide (x = 0x7F) := by
  have hx := x.isLt
  rw [Bool.eq_iff_iff, add8_v, decide_eq_true_iff, ← BitVec.toNat_inj, bitValue_false]
  simp only [signed8, BitVec.reduceToNat]
  omega

theorem sub8_one_c (x : Byte) : (sub8 x 0x01).c = decide (x ≠ 0x00) := by
  rw [sub8_c, decide_eq_decide, ne_eq, ← BitVec.toNat_inj]
  exact Nat.one_le_iff_ne_zero

theorem sub8_one_v (x : Byte) : (sub8 x 0x01).v = decide (x = 0x80) := by
  have hx := x.isLt
  rw [sub8_v_eq_decide, decide_eq_decide, ← BitVec.toNat_inj]
  simp only [signed8, BitVec.reduceToNat]
  omega

/-- Settles O42: the overflow of a step by one is at the end of the signed range, the carry at the end of
the unsigned one. -/
theorem incrementAndDecrementByOne : Obligations.IncrementAndDecrementByOne := by
  intro rn s
  refine ⟨⟨_, exec_inc rn s, ?_⟩, ⟨_, exec_dec rn s, ?_⟩⟩ <;> simp only [State.reg_putResult_same]
  · exact ⟨add8_res_toNat .., flagsAre_putResult s rn (add8_one_c _) (add8_one_v _),
      putResult_keeps s rn _⟩
  · have hres : (sub8 (s.reg rn) 0x01).res.toNat = ((s.reg rn).toNat + 255) % 256 := by
      rw [sub8_res, BitVec.toNat_sub, Nat.add_comm]
      rfl
    exact ⟨hres, flagsAre_putResult s rn (sub8_one_c _) (sub8_one_v _), putResult_keeps s rn _⟩

/-! ## Shifts (R155, R156) -/

theorem encode_shr (rn : Reg) : encode (.shr rn) = [BitVec.ofNat 8 (0x90 + regNumber rn)] := by
  rw [encode, byteR_eq_ofNat]
  rfl

/-- Settles O47: the incoming carry is bit 7 of the result, and so N. -/
theorem shrShiftsCarryIn : Obligations.ShrShiftsCarryIn := by
  intro rn s
  have hseven := shr8_res_getLsbD_seven (s.reg rn) (flagC s.ps)
  have hflags := flagsAre_putResult s rn (x := shr8 (s.reg rn) (flagC s.ps)) rfl rfl
  rw [hseven] at hflags
  refine ⟨encode_shr rn, _, exec_shr rn s, ?_⟩
  simp only [State.reg_putResult_same]
  exact ⟨hseven, fun k hk => shr8_res_getLsbD _ _ hk, hflags, putResult_keeps s rn _⟩

/-- After `n` rotations each bit stands `n` places to the left, modulo 8. -/
theorem execAll_replicate_rol (n : Nat) (rn : Reg) (s : State) :
    ∃ t, execAll (List.replicate n (.rol rn)) s = .next t ∧
      ∀ k, k < 8 → (t.reg rn).getLsbD ((k + n) % 8) = (s.reg rn).getLsbD k := by
  induction n generalizing s with
  | zero => exact ⟨s, rfl, fun k hk => by rw [Nat.add_zero, Nat.mod_eq_of_lt hk]⟩
  | succ n ih =>
    obtain ⟨t, hrun, hbits⟩ := ih ((s.advance 1).putResult rn (rol8 (s.reg rn)))
    refine ⟨t, (execAll_cons (exec_rol rn s) _).trans hrun, fun k hk => ?_⟩
    have hplace : (k + (n + 1)) % 8 = ((k + 1) % 8 + n) % 8 := by omega
    rw [hplace, hbits _ (Nat.mod_lt _ (by omega)), State.reg_putResult_same, rol8_res_getLsbD _ hk]

/-- Settles O48: one rotation moves the bits by one place, so eight move them to where they were. -/
theorem rolRotatesIntoCarry : Obligations.RolRotatesIntoCarry := by
  intro rn s
  refine ⟨⟨_, exec_rol rn s, ?_⟩, ?_⟩
  · simp only [State.reg_putResult_same]
    refine ⟨rol8_res_getLsbD _ (by omega : 7 < 8), fun k hk => ?_, flagsAre_putResult s rn rfl rfl,
      putResult_keeps s rn _⟩
    have h := rol8_res_getLsbD (s.reg rn) (by omega : k < 8)
    rwa [Nat.mod_eq_of_lt (by omega : k + 1 < 8)] at h
  · obtain ⟨t, hrun, hbits⟩ := execAll_replicate_rol 8 rn s
    refine ⟨t, hrun, BitVec.eq_of_getLsbD_eq fun k hk => ?_⟩
    have h := hbits k hk
    rwa [Nat.add_mod_right, Nat.mod_eq_of_lt hk] at h

end Sys2Proof.Proofs
end

section
/-! Rules for the 16-bit values on the stack: a word pushed is read back, and a word stored elsewhere is not
in the way (spec/43_control.md R175 to R179). -/

namespace Sys2Proof.Machine

theorem State.readData16_toNat (s : State) (a : Byte) :
    (s.readData16 a).toNat = (s.readData (a + 1)).toNat * 256 + (s.readData a).toNat :=
  concat16_toNat ..

theorem State.readData16_sp_pushWord (s : State) (w : Addr) :
    (s.pushWord w).readData16 (s.pushWord w).sp = w := by
  rw [State.readData16, State.readData_sp_pushWord, State.readData_sp_add_one_pushWord,
    concat16_hi_lo]

end Sys2Proof.Machine
end

section
/-! The control and clock instructions (spec/43_control.md, spec/44_clock_control.md): branches, `jmp`,
`rts`, `ioi`, `rti`, `crc`, `halt` and `wait`; and the assembler's branch operand and long `goto`
(spec/30_encoding.md R86, R105). -/

namespace Sys2Proof.Proofs

open Sys2Proof.Machine Sys2Proof.Asm

/-! ## Branches (R170, R171) -/

/-- Settles O49: each test is that of its condition. -/
theorem simpleBranchesTestOneFlag : Obligations.SimpleBranchesTestOneFlag := by
  intro off s
  exact ⟨branchOutcome_branchInstr (c := .eq) rfl off, branchOutcome_branchInstr (c := .ne) rfl off,
    branchOutcome_branchInstr (c := .hs) rfl off, branchOutcome_branchInstr (c := .lo) rfl off,
    branchOutcome_branchInstr (c := .mi) rfl off, branchOutcome_branchInstr (c := .pl) rfl off,
    branchOutcome_branchInstr (c := .vs) rfl off, branchOutcome_branchInstr (c := .vc) rfl off,
    branchOutcome_branchInstr (c := .always) rfl off, branchOutcome_branchInstr (c := .never) rfl off⟩

/-- Settles O50: the formulas of R171 and the tests of the model agree for each value of N and V. -/
theorem compoundBranchesTestFlags : Obligations.CompoundBranchesTestFlags := by
  intro off s
  have hge : condHolds .ge s.ps =
      ((flagN s.ps && flagV s.ps) || (!flagN s.ps && !flagV s.ps)) := by
    rw [condHolds]
    cases flagN s.ps <;> cases flagV s.ps <;> rfl
  have hgt : condHolds .gt s.ps = ((!flagZ s.ps && flagN s.ps && flagV s.ps) ||
      (!flagZ s.ps && !flagN s.ps && !flagV s.ps)) := by
    rw [condHolds]
    cases flagZ s.ps <;> cases flagN s.ps <;> cases flagV s.ps <;> rfl
  have hle : condHolds .le s.ps =
      (flagZ s.ps || (flagN s.ps && !flagV s.ps) || (!flagN s.ps && flagV s.ps)) := by
    rw [condHolds]
    cases flagZ s.ps <;> cases flagN s.ps <;> cases flagV s.ps <;> rfl
  exact ⟨branchOutcome_branchInstr (c := .hi) rfl off, branchOutcome_branchInstr (c := .ls) rfl off,
    branchOutcome_branchInstr hge off, branchOutcome_branchInstr (c := .lt) rfl off,
    branchOutcome_branchInstr hgt off, branchOutcome_branchInstr hle off⟩

/-! ## Jumps and returns (R174, R176) -/

/-- Settles O51: PC is the only field that changes. -/
theorem jumpSetsPc : Obligations.JumpSetsPc := by
  intro target s
  exact ⟨rfl, _, exec_jmp target s, rfl, rfl, rfl, rfl, frame_setPc target s⟩

/-- Settles O53: the word that `rts` pops after a `jsr` is the one that the `jsr` pushed. -/
theorem rtsPopsPc : Obligations.RtsPopsPc := by
  intro target s
  have hword := State.readData16_sp_pushWord (s.advance 3) (s.pc + 3)
  refine ⟨⟨_, exec_rts s, State.readData16_toNat s s.sp, BitVec.toNat_add .., rfl, rfl,
    (frame_setPc _ s).trans (frame_setSp _ _)⟩, _, execAll_cons (exec_jsr target s) [.rts], ?_, ?_⟩
  · exact (congrArg BitVec.toNat hword).trans (BitVec.toNat_add ..)
  · show ((s.advance 3).pushWord (s.pc + 3)).sp + 2 = s.sp
    rw [State.pushWord_sp]
    exact BitVec.sub_add_cancel ..

/-! ## Interrupt entry and return as instructions (R177, R178) -/

/-- Settles O54: the entry with the address after the instruction as return address. -/
theorem ioiEntersInterrupt : Obligations.IoiEntersInterrupt := by
  intro s
  obtain ⟨-, -, houtside⟩ := frame_enterInterrupt s.input.irqVector (s.pc + 1) (s.advance 1)
  exact ⟨_, exec_ioi s, entryEffect_enterInterrupt _ _ (s.advance 1), enterInterrupt_clock ..,
    houtside⟩

/-- Settles O55: `rti` after `ioi` finds the frame that the `ioi` left. -/
theorem rtiPopsStatusThenPc : Obligations.RtiPopsStatusThenPc := by
  intro s
  have h2 : s.sp + 1 + 1 = s.sp + 2 := by bv_omega
  have hpc : (s.readData16 (s.sp + 1)).toNat =
      (s.readData (s.sp + 2)).toNat * 256 + (s.readData (s.sp + 1)).toNat := by
    rw [State.readData16_toNat, h2]
  refine ⟨⟨_, exec_rti s, rfl, hpc, ?_, rfl, frame_returnFromInterrupt s⟩, ?_⟩
  · rw [returnFromInterrupt_sp]
    exact BitVec.toNat_add ..
  · have hentry : EntryEffect s.input.irqVector (s.pc + 1) s
        (enterInterrupt s.input.irqVector (s.pc + 1) (s.advance 1)) :=
      entryEffect_enterInterrupt _ _ (s.advance 1)
    obtain ⟨hpc, hps, hsp⟩ := returnFromInterrupt_of_entryEffect hentry
    obtain ⟨-, -, -, -, -, -, hregs, -⟩ := hentry
    exact ⟨_, execAll_cons (exec_ioi s) [.rti], hps, hsp, hpc, hregs⟩

/-! ## The exchange (R179) -/

/-- Settles O56: PC past the `crc` goes where the word at SP was, so a second `crc` takes it back. -/
theorem crcExchangesPcWithStack : Obligations.CrcExchangesPcWithStack := by
  intro s
  have hreturn : (s.pc + 1).toNat = (s.pc.toNat + 1) % 65536 := BitVec.toNat_add ..
  have hne : s.sp ≠ s.sp + 1 := (byte_add_one_ne s.sp).symm
  refine ⟨⟨_, exec_crc s, State.readData16_toNat s s.sp, ?low, ?high, ?sp, ?ps, ?clock, ?frame⟩, ?twice⟩
  case low =>
    rw [State.readData_setPc, State.readData_writeData16, if_neg hne, if_pos rfl, lo_toNat, hreturn]
  case high => rw [State.readData_setPc, State.readData_writeData16, if_pos rfl, hi_toNat, hreturn]
  case sp => exact State.writeData16_sp ..
  case ps => exact State.writeData16_ps ..
  case clock => exact State.writeData16_clock ..
  case frame =>
    rw [stackAddress_zero]
    exact (frame_writeData16 s.sp _ s).trans (frame_setPc _ _)
  case twice =>
    refine ⟨_, (execAll_cons (exec_crc s) [.crc]).trans (execAll_cons (exec_crc _) []), ?_, ?_⟩
    · simp
    · simp

/-! ## The clock (spec/44_clock_control.md R190, R191) -/

/-- Settles O57: the clock is the only field that changes. -/
theorem haltAndWaitStopClockAtThemselves : Obligations.HaltAndWaitStopClockAtThemselves := by
  intro s
  exact ⟨⟨_, exec_halt s, rfl, rfl, rfl, rfl, frame_setClock .halted s⟩,
    ⟨_, exec_wait s, rfl, rfl, rfl, rfl, frame_setClock .waiting s⟩⟩

/-! ## The branch operand (spec/30_encoding.md R86) -/

theorem branchInReach_iff (a target : Addr) :
    branchInReach a target = true ↔
      -128 ≤ branchDistance a target ∧ branchDistance a target ≤ 127 := by
  simp [branchInReach]

/-- A byte has one signed reading, and each number from -128 to 127 is that of a byte. -/
theorem ofInt_eq_iff_signed8_eq {n : Int} (hlow : -128 ≤ n) (hhigh : n ≤ 127) (off : Byte) :
    BitVec.ofInt 8 n = off ↔ signed8 off = n := by
  have hself : (BitVec.ofInt 8 n).toInt = n := by
    rw [BitVec.toInt_ofInt]
    exact Int.bmod_eq_of_le (by omega) (by omega)
  rw [signed8_eq_toInt, ← BitVec.toInt_inj, hself, eq_comm]

theorem signed8_range (off : Byte) : -128 ≤ signed8 off ∧ signed8 off ≤ 127 := by
  have hoff := off.isLt
  rw [signed8]
  split <;> omega

theorem branchOffset_eq_some_iff (a target : Addr) (off : Byte) :
    branchOffset a target = some off ↔ signed8 off = branchDistance a target := by
  unfold branchOffset
  split
  · next h =>
    obtain ⟨hlow, hhigh⟩ := (branchInReach_iff a target).mp h
    rw [Option.some_inj, ofInt_eq_iff_signed8_eq hlow hhigh]
  · next h =>
    refine ⟨nofun, fun hoff => absurd ((branchInReach_iff a target).mpr ?_) h⟩
    exact hoff ▸ signed8_range off

theorem branchOffset_eq_none_iff (a target : Addr) :
    branchOffset a target = none ↔
      branchDistance a target < -128 ∨ 127 < branchDistance a target := by
  have h := branchInReach_iff a target
  unfold branchOffset
  split
  · next hreach =>
    obtain ⟨hlow, hhigh⟩ := h.mp hreach
    refine ⟨nofun, fun hout => ?_⟩
    omega
  · next hreach =>
    have hout := mt h.mpr hreach
    refine ⟨fun _ => ?_, fun _ => rfl⟩
    omega

/-- Settles O58: the distance counts from the byte after the branch, where PC stands when the offset is
added. -/
theorem branchOperandReachesTarget : Obligations.BranchOperandReachesTarget := by
  intro a target
  refine ⟨branchOffset_eq_some_iff a target, branchOffset_eq_none_iff a target,
    fun off s hoff hpc => ?_⟩
  obtain ⟨t, hexec, htarget, -⟩ := branchOutcome_branchInstr (c := .always) (s := s) rfl off
  refine ⟨t, hexec, BitVec.eq_of_toNat_eq ?_⟩
  have hdistance := (branchOffset_eq_some_iff a target off).mp hoff
  have hlt := target.isLt
  rw [branchDistance] at hdistance
  rw [condHolds, if_pos rfl, hpc] at htarget
  omega

/-! ## The long form of `goto` (spec/30_encoding.md R105) -/

/-- Opposite conditions have opposite tests (R172). -/
theorem condHolds_opposite (c : Cond) (ps : Byte) : condHolds (opposite c) ps = !condHolds c ps := by
  cases c <;> simp [opposite, condHolds, bne]

theorem encode_branchInstr (c : Cond) (off : Byte) :
    encode (branchInstr c off) = bytesB c off := by
  cases c <;> rfl

/-- Settles O59: the branch over the `jmp` is not taken exactly when the condition holds. -/
theorem gotoLongForm : Obligations.GotoLongForm := by
  intro c target s
  have hopposite := condHolds_opposite c s.ps
  refine ⟨?length, ?code, hopposite, fun hc => ?holds, fun hc => ?fails⟩
  case length =>
    rw [gotoLong, List.flatMap_cons, encode_branchInstr]
    rfl
  case code => cases c <;> rfl
  case holds =>
    refine ⟨_, (execAll_cons (exec_branchInstr _ _ s) _).trans (execAll_cons (exec_jmp target _) []),
      rfl, ?_, ?_, (frame_branch _ _ s).trans (frame_setPc target _)⟩
    · rw [branch_eq_setPc]; rfl
    · rw [branch_eq_setPc]; rfl
  case fails =>
    refine ⟨_, execAll_cons (exec_branchInstr (opposite c) 0x03 s) [], ?_, ?_, ?_,
      frame_branch _ _ s⟩
    · rw [branch_pc, hopposite, hc, Bool.not_false, if_pos rfl, BitVec.add_assoc]
      rfl
    · rw [branch_eq_setPc]; rfl
    · rw [branch_eq_setPc]; rfl

end Sys2Proof.Proofs
end

section
/-! The instruction sequences for the macros (spec/45_macros.md R196 to R202). -/

namespace Sys2Proof.Proofs

open Sys2Proof.Machine Sys2Proof.Asm

/-! ## `tst` and `clr` (R196, R197): one instruction with a result -/

theorem memoryKept_putResult (s : State) (r : Reg) (x : Alu) :
    MemoryKept [] s ((s.advance 1).putResult r x) :=
  memoryKept_of_eq rfl rfl rfl []

/-- A register written with what it holds gives its flags and changes no register. -/
theorem macroEffect_tst (rn : Reg) (s : State) :
    macroEffect 0 (.tst rn) s ((s.advance 1).putResult rn (logic8 (s.reg rn))) := by
  refine ⟨⟨rfl, rfl, rfl⟩, rfl, ⟨_, _, flagsAre_setFlags (x := logic8 (s.reg rn)) rfl⟩, fun r _ => ?_,
    memoryKept_putResult s rn _⟩
  by_cases hr : r = rn
  · rw [hr, State.reg_putResult_same]
    rfl
  · exact regsKept_putResult s 1 rn _ r (by simpa using hr)

theorem exec_tstCandidate {i : Instr} {rn : Reg} (hi : i ∈ tstCandidates rn) (s : State) :
    exec i s = .next ((s.advance 1).putResult rn (logic8 (s.reg rn))) := by
  simp only [tstCandidates, List.mem_cons, List.not_mem_nil, or_false] at hi
  rcases hi with rfl | rfl | rfl
  · exact exec_move rn rn s
  · rw [exec_and, BitVec.and_self]
  · rw [exec_or, BitVec.or_self]

theorem macroEffect_clr (rn : Reg) (s : State) {x : Alu} (hres : x.res = 0) (hv : x.v = false) :
    macroEffect 0 (.clr rn) s ((s.advance 1).putResult rn x) := by
  have hflags : FlagsAre x.c x.v (x.res == 0) (x.res.getLsbD 7) s ((s.advance 1).putResult rn x) :=
    flagsAre_setFlags rfl
  rw [hres, hv] at hflags
  exact ⟨⟨rfl, rfl, rfl⟩, rfl, (State.reg_putResult_same ..).trans hres, ⟨_, hflags⟩, rfl,
    regsKept_putResult s 1 rn x, memoryKept_putResult s rn x⟩

/-- `xor` and `sub` of a byte with itself are zero without overflow. -/
theorem exec_clrCandidate {i : Instr} {rn : Reg} (hi : i ∈ clrCandidates rn) (s : State) :
    ∃ x : Alu, exec i s = .next ((s.advance 1).putResult rn x) ∧ x.res = 0 ∧ x.v = false := by
  simp only [clrCandidates, List.mem_cons, List.not_mem_nil, or_false] at hi
  rcases hi with rfl | rfl
  · exact ⟨_, exec_xor rn rn s, BitVec.xor_self, rfl⟩
  · refine ⟨_, exec_sub rn rn s, ?_, ?_⟩
    · rw [sub8_res]
      exact BitVec.sub_self _
    · rw [sub8_v_eq_decide, Int.sub_self]
      rfl

/-! ## `shl` (R198): the sum of a register with itself and C -/

/-- Bit 6 moves to bit 7, whatever the incoming carry. -/
theorem add8_self_res_getLsbD_seven (x : Byte) (cin : Bool) :
    (add8 x x cin).res.getLsbD 7 = x.getLsbD 6 := by
  have hc : bitValue cin ≤ 1 := by cases cin <;> decide
  have hhalf : (x.toNat + x.toNat + bitValue cin) / 2 = x.toNat := by omega
  calc (add8 x x cin).res.getLsbD 7
      = (x.toNat + x.toNat + bitValue cin).testBit 7 := BitVec.getLsbD_ofNat 8 _ 7
    _ = ((x.toNat + x.toNat + bitValue cin) / 2).testBit 6 := Nat.testBit_succ _ 6
    _ = x.getLsbD 6 := by rw [hhalf, BitVec.getLsbD]

theorem add8_self_c (x : Byte) (cin : Bool) : (add8 x x cin).c = x.getLsbD 7 := by
  have hc : bitValue cin ≤ 1 := by cases cin <;> decide
  rw [add8_c, getLsbD_seven, decide_eq_decide]
  omega

theorem add8_self_v (x : Byte) (cin : Bool) :
    (add8 x x cin).v = (x.getLsbD 7 ^^ x.getLsbD 6) := by
  rw [add8_v_eq_decide, add8_self_res_getLsbD_seven]
  cases x.getLsbD 7 <;> cases x.getLsbD 6 <;> rfl

theorem add8_self_res (x : Byte) (cin : Bool) :
    (add8 x x cin).res = BitVec.ofNat 8 ((x.toNat * 2) % 256 + bitValue cin) := by
  apply BitVec.eq_of_toNat_eq
  rw [add8_res_toNat, BitVec.toNat_ofNat]
  omega

theorem macroEffect_shl (rn : Reg) (s : State) : macroEffect 0 (.shl rn) s
    ((s.advance 1).putResult rn (add8 (s.reg rn) (s.reg rn) (flagC s.ps))) := by
  have hflags : FlagsAre _ _ _ _ s
      ((s.advance 1).putResult rn (add8 (s.reg rn) (s.reg rn) (flagC s.ps))) :=
    flagsAre_setFlags rfl
  rw [add8_self_c, add8_self_v] at hflags
  refine ⟨⟨rfl, rfl, rfl⟩, rfl, ?_⟩
  simp only [State.reg_putResult_same]
  exact ⟨add8_self_res .., hflags, regsKept_putResult s 1 rn _, memoryKept_putResult s rn _⟩

/-! ## `ldv` and `stv` (R199, R200) -/

theorem execAll_ldvSequence (const : Byte) (rn : Reg) (s : State) :
    execAll (ldvSequence const rn) s =
      .next ((((s.advance 2).setReg rn const).advance 1).setReg rn (s.readData const)) := by
  rw [ldvSequence, execAll_cons (exec_ldi rn const s), execAll_cons (exec_ld rn rn _), execAll_nil,
    State.reg_setReg_same]
  rfl

theorem macroEffect_ldv (const : Byte) (rn : Reg) (s : State) : macroEffect 0 (.ldv const rn) s
    ((((s.advance 2).setReg rn const).advance 1).setReg rn (s.readData const)) := by
  obtain ⟨hregs, hmemory, -⟩ := (frame_advance_setReg 2 rn const s).trans
    (frame_advance_setReg 1 rn (s.readData const) _)
  exact ⟨⟨rfl, rfl, rfl⟩, rfl, State.reg_setReg_same .., rfl,
    fun r hr => hregs r (by simpa using hr), hmemory⟩

/-- The state in which `stv` restores the scratch register: it has been pushed, and the byte stored at the
address it then held. -/
def stvStored (rk rn : Reg) (const : Byte) (s : State) : State :=
  ((((s.pushByte (s.reg rk)).advance 1).advance 2).setReg rk const).writeData const (s.reg rn)

theorem execAll_stvSequence {rk rn : Reg} (h : rk ≠ rn) (const : Byte) (s : State) :
    execAll (stvSequence rk rn const) s =
      .next ((((stvStored rk rn const s).advance 1).popReg rk).advance 1) := by
  rw [stvSequence, execAll_cons (exec_push rk s), execAll_cons (exec_ldi rk const _),
    execAll_cons (exec_st rk rn _), execAll_cons (exec_pop rk _), execAll_nil, dataAddress,
    State.reg_setReg_same, State.reg_setReg_of_ne _ _ h.symm, State.reg_advance, State.reg_advance,
    State.reg_pushByte]
  rfl

theorem stvStored_sp (rk rn : Reg) (const : Byte) (s : State) :
    (stvStored rk rn const s).sp = s.sp - 1 := by
  simp [stvStored]

/-- The byte that the `pop` finds is the scratch register's, unless the constant names its cell. -/
theorem readData_stvStored (rk rn : Reg) {const : Byte} (s : State) (h : const ≠ s.sp - 1) :
    (stvStored rk rn const s).readData (s.sp - 1) = s.reg rk := by
  rw [stvStored, State.readData_writeData_of_ne _ _ h.symm]
  simp [State.readData_pushByte]

theorem frame_stv (rk rn : Reg) (const : Byte) (s : State) :
    Frame [rk, rk] [s.sp - 1, const] s
      ((((stvStored rk rn const s).advance 1).popReg rk).advance 1) :=
  ((((((frame_pushByte (s.reg rk) s).trans (frame_advance 1 _)).trans
    (frame_advance_setReg 2 rk const _)).trans (frame_writeData const (s.reg rn) _)).trans
    (frame_advance 1 _)).trans (frame_popReg rk _)).trans (frame_advance 1 _)

/-- The `pop` restores the scratch register, unless the constant names the cell of the `push`. -/
theorem stv_reg_scratch (rk rn : Reg) {const : Byte} (s : State) (h : const ≠ s.sp - 1) :
    ((((stvStored rk rn const s).advance 1).popReg rk).advance 1).reg rk = s.reg rk := by
  rw [State.reg_advance, State.reg_popReg, if_pos rfl, State.readData_advance, State.advance_sp,
    stvStored_sp, readData_stvStored rk rn s h]

theorem macroEffect_stv {rk rn : Reg} (h : rk ≠ rn) (const : Byte) (s : State) :
    macroEffect 1 (.stv rn const) s
      ((((stvStored rk rn const s).advance 1).popReg rk).advance 1) := by
  obtain ⟨hregs, hmemory, harch, hldc, -⟩ := frame_stv rk rn const s
  refine ⟨⟨by simp [stvStored, State.popReg], harch, hldc⟩, ?sp, ?stored, ?ps, ?source, ?memory⟩
  case sp =>
    rw [State.advance_sp, State.popReg_sp, State.advance_sp, stvStored_sp]
    exact BitVec.sub_add_cancel ..
  case stored => simp [stvStored]
  case ps => simp [stvStored, State.popReg]
  case source => exact hregs rn (by simpa using h.symm)
  case memory =>
    refine hmemory.mono fun a ha => ?_
    simp only [List.mem_cons, List.not_mem_nil, or_false] at ha
    rcases ha with rfl | rfl
    · exact List.mem_cons_of_mem _ (mem_stackBelow.mpr ⟨0, by omega, rfl⟩)
    · exact List.mem_cons_self

/-! ## `ei` and `di` (R201, R202): a frame built by three pushes, and the return through it -/

/-- A constant pushed by way of a register: `ldi rk, v; push rk`. -/
def pushConst (rk : Reg) (v : Byte) (s : State) : State :=
  (((s.advance 2).setReg rk v).pushByte v).advance 1

theorem execAll_ldi_push (rk : Reg) (v : Byte) (s : State) (rest : List Instr) :
    execAll (.ldi rk v :: .push rk :: rest) s = execAll rest (pushConst rk v s) := by
  rw [execAll_cons (exec_ldi rk v s), execAll_cons (exec_push rk _), State.reg_setReg_same]
  rfl

theorem pushConst_sp (rk : Reg) (v : Byte) (s : State) : (pushConst rk v s).sp = s.sp - 1 := by
  simp [pushConst]

theorem pushConst_clock (rk : Reg) (v : Byte) (s : State) : (pushConst rk v s).clock = s.clock := by
  simp [pushConst]

theorem readData_pushConst (rk : Reg) (v : Byte) (s : State) (d : Byte) :
    (pushConst rk v s).readData d = if d = s.sp - 1 then v else s.readData d := by
  rw [pushConst, State.readData_advance, State.readData_pushByte]
  rfl

theorem frame_pushConst (rk : Reg) (v : Byte) (s : State) :
    Frame [rk] [s.sp - 1] s (pushConst rk v s) :=
  ((frame_advance_setReg 2 rk v s).trans (frame_pushByte v _)).trans (frame_advance 1 _)

/-- The frame of an interrupt entry with return address `L` and the given PS, built by hand. -/
def pushFrame (rk : Reg) (psByte : Byte) (L : Addr) (s : State) : State :=
  pushConst rk psByte (pushConst rk (lo L) (pushConst rk (hi L) s))

theorem execAll_psSequence (rk : Reg) (psByte : Byte) (L : Addr) (s : State) :
    execAll (psSequence rk psByte L) s = .next (returnFromInterrupt (pushFrame rk psByte L s)) := by
  rw [psSequence, execAll_ldi_push, execAll_ldi_push, execAll_ldi_push, execAll_cons (exec_rti _),
    execAll_nil]
  rfl

theorem sub_one_sub_one (a : Byte) : a - 1 - 1 = a - 2 := by bv_omega

theorem sub_two_sub_one (a : Byte) : a - 2 - 1 = a - 3 := by bv_omega

theorem pushFrame_sp (rk : Reg) (psByte : Byte) (L : Addr) (s : State) :
    (pushFrame rk psByte L s).sp = s.sp - 3 := by
  simp only [pushFrame, pushConst_sp, sub_one_sub_one, sub_two_sub_one]

theorem readData_pushFrame (rk : Reg) (psByte : Byte) (L : Addr) (s : State) (d : Byte) :
    (pushFrame rk psByte L s).readData d =
      if d = s.sp - 3 then psByte
      else if d = s.sp - 2 then lo L
      else if d = s.sp - 1 then hi L
      else s.readData d := by
  simp only [pushFrame, readData_pushConst, pushConst_sp, sub_one_sub_one, sub_two_sub_one]

/-- The return through the frame: PC, PS and SP as the frame says, and memory but for its three bytes. -/
theorem psSequence_effect (rk : Reg) (psByte : Byte) (L : Addr) (s : State) :
    ∃ t, execAll (psSequence rk psByte L) s = .next t ∧ t.ps = psByte ∧ t.pc = L ∧ t.sp = s.sp ∧
      OutsideMacroKept s t ∧ MemoryKept (stackBelow 3 s) s t := by
  have h23 : s.sp - 2 ≠ s.sp - 3 := by bv_omega
  have h13 : s.sp - 1 ≠ s.sp - 3 := by bv_omega
  have h12 : s.sp - 1 ≠ s.sp - 2 := by bv_omega
  obtain ⟨hpc, hps, hsp⟩ := returnFromInterrupt_of_stackFrame (t := pushFrame rk psByte L s)
    (sp := s.sp) (ps := psByte) (ret := L) (pushFrame_sp ..)
    (by rw [readData_pushFrame, if_pos rfl])
    (by rw [readData_pushFrame, if_neg h23, if_pos rfl])
    (by rw [readData_pushFrame, if_neg h13, if_neg h12, if_pos rfl])
  obtain ⟨-, hmemory, harch, hldc, -⟩ := (((frame_pushConst rk (hi L) s).trans
    (frame_pushConst rk (lo L) _)).trans (frame_pushConst rk psByte _)).trans
    (frame_returnFromInterrupt (pushFrame rk psByte L s))
  have hclock : (pushFrame rk psByte L s).clock = s.clock := by
    simp only [pushFrame, pushConst_clock]
  refine ⟨_, execAll_psSequence rk psByte L s, hps, hpc, hsp, ⟨hclock, harch, hldc⟩,
    hmemory.mono fun a ha => ?_⟩
  simp only [pushConst_sp, sub_one_sub_one, sub_two_sub_one, List.cons_append, List.nil_append,
    List.append_nil, List.mem_cons, List.not_mem_nil, or_false] at ha
  rw [mem_stackBelow]
  rcases ha with rfl | rfl | rfl
  · exact ⟨0, by omega, rfl⟩
  · exact ⟨1, by omega, rfl⟩
  · exact ⟨2, by omega, rfl⟩

/-- Settles O60: each sequence by the effect of its one instruction, or by the composition of its parts. -/
theorem macroSequencesHaveTheEffect : Obligations.MacroSequencesHaveTheEffect := by
  intro rn rk const L s
  refine ⟨fun i hi => ⟨_, exec_tstCandidate hi s, macroEffect_tst rn s⟩, fun i hi => ?clr,
    ⟨_, execAll_cons (exec_addc rn rn s) [], macroEffect_shl rn s⟩,
    ⟨_, execAll_ldvSequence const rn s, macroEffect_ldv const rn s⟩, fun h => ?stv, ?ei, ?di⟩
  case clr =>
    obtain ⟨x, hexec, hres, hv⟩ := exec_clrCandidate hi s
    exact ⟨_, hexec, macroEffect_clr rn s hres hv⟩
  case stv =>
    have heffect := macroEffect_stv h const s
    obtain ⟨-, hsp, -⟩ := id heffect
    refine ⟨_, execAll_stvSequence h const s, heffect, hsp, fun hconst r _ => ?_⟩
    by_cases hr : r = rk
    · rw [hr, stv_reg_scratch rk rn s hconst]
    · obtain ⟨hregs, -, -⟩ := frame_stv rk rn const s
      exact hregs r (by simpa using hr)
  case ei =>
    obtain ⟨t, hrun, hps, hpc, hsp, houtside, hmemory⟩ := psSequence_effect rk 0x80 L s
    exact ⟨t, hrun, ⟨houtside, hsp, hps, hmemory⟩, hpc, hsp⟩
  case di =>
    obtain ⟨t, hrun, hps, hpc, hsp, houtside, hmemory⟩ := psSequence_effect rk 0x00 L s
    exact ⟨t, hrun, ⟨houtside, hsp, hps, hmemory⟩, hpc, hsp⟩

end Sys2Proof.Proofs
end
